-- ==== Sys2Proof/Word.lean ====
section
/-! DEFINITION. The widths the spec names (00_scope.md R9): a byte, a nibble and a septet, all unsigned. -/

namespace Sys2Proof

/-- A byte, bits [7:0] (R9). -/
abbrev Byte := BitVec 8

/-- A nibble, bits [3:0] (R9). -/
abbrev Nibble := BitVec 4

/-- A septet, bits [6:0] (R9). -/
abbrev Septet := BitVec 7

end Sys2Proof
end

