-- ==== Sys2Proof/Config.lean ====
section
/-! DEFINITION. What is fixed for every SeptetPacker (00_scope.md R7), and the free values: the points the spec calls
"any value" (93_implementation_defined.md U1, U7 to U11). A free value is an opaque constant applied to the number of
the draw; nothing in Lean can evaluate it, so no statement can rest on what it is. -/

namespace Sys2Proof.Config

/-- MAX_TEXT: the most septets PACK7 and ASMPDU accept (R7). -/
def maxText : Nat := 160

/-- MR: the message-reference byte, fixed (R7, R40). -/
def messageReference : Byte := 0x00

/-- PAD: the pad nibble of an odd digit count (R7). -/
def padNibble : Nibble := 0xF

/-- The bound of the open parameter MAX_DIGITS (R7: 0 <= MAX_DIGITS <= 255). -/
def maxDigitsBound : Nat := 255

/-- The value the spec suggests for the open parameter MAX_DIGITS (R7). -/
def maxDigitsSuggested : Nat := 20

/-- The least width of the open parameter CAP_W (R7: at least 8). -/
def capWidthLeast : Nat := 8

/-- Reset value of CFG_MTI (R27). -/
def resetMti : Byte := 0x11

/-- Reset value of CFG_TOA (R27). -/
def resetToa : Byte := 0x91

/-- Reset value of CFG_PID (R27). -/
def resetPid : Byte := 0x00

/-- Reset value of CFG_DCS (R27). -/
def resetDcs : Byte := 0x00

/-- Reset value of CFG_VP (R27). -/
def resetVp : Byte := 0xB0

/-- What a byte of caller memory that nothing has written reads as. DESIGN CHOICE, unsafe: log entry 4. -/
def unlistedByte : Byte := 0x00

/-- The byte drawn for OUT index `index` where the spec gives OUT no defined value (R184, R185, R201). Free: log entry 8. -/
opaque freeOutByte (draw index : Nat) : Byte

/-- LEN where it has no defined value (R25, R39, R201). Free: log entry 8. -/
opaque freeLen (draw : Nat) : Nat

/-- Which of two applicable error kinds is reported (R104, R124, R163): `true` takes the first. Free: log entry 9. -/
opaque freeErrorPick (draw : Nat) : Bool

/-- STATUS after a block reset (R39, R201). Free: log entry 8. -/
opaque freeStatus (draw : Nat) : BitVec 2

/-- CMD after a block reset (R39). Free: log entry 8. -/
opaque freeCmd (draw : Nat) : Byte

/-- NS, ND, NT and CAP (slots 0 to 3) after a block reset (R39). Free: log entry 8. -/
opaque freeOperand (draw slot : Nat) : Nat

/-- The transient registers (one slot each) once no operation runs (R30, R39). Free: log entry 8. -/
opaque freeTransient (draw slot : Nat) : Nat

end Sys2Proof.Config
end

