-- ==== Sys2Proof/Syntax.lean ====
section
/-! DEFINITION. The commands of the opcode map (30_encoding.md R73): one constructor per row of spec/opcode_table.json.
The operands are buffers with their lengths on the command interface (R72), so only the flag S is part of a command. -/

namespace Sys2Proof

/-- The three commands (30_encoding.md R73). -/
inductive Instr where
  /-- ENCADDR: encode one phone number as semi-octets (R100). -/
  | encaddr
  /-- PACK7: pack text into 7-bit septets (R120). -/
  | pack7
  /-- ASMPDU: assemble a submit PDU (R150); `smsc` is the flag S, "SMSC present" (R70). -/
  | asmpdu (smsc : Bool)
  deriving DecidableEq, Repr

/-- The mnemonic of a command (R73). -/
def Instr.mnemonic : Instr → String
  | .encaddr => "ENCADDR"
  | .pack7 => "PACK7"
  | .asmpdu _ => "ASMPDU"

end Sys2Proof
end

