-- ==== Sys2Proof/WellFormed.lean ====
section
/-! DEFINITION. The fields of the command byte (30_encoding.md R70) and which combinations are a command (R70, R74). -/

namespace Sys2Proof

/-- The three fields of the command byte of format C (R70). -/
structure CmdFields where
  /-- OP, bits [1:0]. -/
  op : BitVec 2
  /-- S, bit [2]: SMSC present. -/
  smsc : Bool
  /-- RSV, bits [7:3]. -/
  rsv : BitVec 5
  deriving DecidableEq, Repr

/-- OP names an operation: 0b00 is reserved (R70). -/
def CmdFields.opAssigned (f : CmdFields) : Bool := f.op != 0b00

/-- S is meaningful for ASMPDU only; for ENCADDR and PACK7 it must be 0 (R70). -/
def CmdFields.smscAllowed (f : CmdFields) : Bool := !f.smsc || f.op == 0b11

/-- RSV must be 0b00000 (R70). -/
def CmdFields.rsvZero (f : CmdFields) : Bool := f.rsv == 0

/-- The fields are those of a command (R70, R74). -/
def CmdFields.wf (f : CmdFields) : Bool := f.opAssigned && f.smscAllowed && f.rsvZero

/-- The fields of each command (R70, R73). -/
def Instr.fields : Instr → CmdFields
  | .encaddr => { op := 0b01, smsc := false, rsv := 0 }
  | .pack7 => { op := 0b10, smsc := false, rsv := 0 }
  | .asmpdu smsc => { op := 0b11, smsc := smsc, rsv := 0 }

/-- A command is well-formed when its fields are (R70). -/
def Instr.wf (i : Instr) : Bool := i.fields.wf

end Sys2Proof
end

