-- ==== Sys2Proof/Decode.lean ====
section
/-! DEFINITION. Decoding and encoding of the command byte (30_encoding.md R70 to R74). Every command is one byte (R71), so the
decoder is total on bytes; what it rejects it rejects by the name of the field that is reserved. -/

namespace Sys2Proof

/-- Why a command byte is reserved (R74). -/
inductive Reserved where
  /-- RSV, bits [7:3], is not zero. -/
  | rsvBits
  /-- OP, bits [1:0], is 0b00. -/
  | opZero
  /-- S, bit [2], is 1 on ENCADDR or PACK7. -/
  | smscBit
  deriving DecidableEq, Repr

/-- The fields of a command byte (R70). -/
def splitCmd (b : Byte) : CmdFields :=
  { op := b.extractLsb' 0 2, smsc := b.getLsbD 2, rsv := b.extractLsb' 3 5 }

/-- The command byte with the given fields (R70). -/
def joinCmd (f : CmdFields) : Byte := f.rsv ++ (BitVec.ofBool f.smsc ++ f.op)

/-- The command that fields stand for, or why they are reserved (R70, R73, R74). -/
def decodeFields (f : CmdFields) : Except Reserved Instr :=
  if f.rsv ≠ 0 then .error .rsvBits
  else if f.op = 0b11 then .ok (.asmpdu f.smsc)
  else if f.op = 0b00 then .error .opZero
  else if f.smsc then .error .smscBit
  else if f.op = 0b01 then .ok .encaddr
  else .ok .pack7

/-- The decoder: a command learns everything from CMD alone (R71). -/
def decode (b : Byte) : Except Reserved Instr := decodeFields (splitCmd b)

/-- The encoder, from the same field layout (R70, R73). -/
def encode (i : Instr) : Byte := joinCmd i.fields

/-- A row of the opcode map: it selects its command when (CMD & mask) = match (R73). -/
structure OpRow where
  mnemonic : String
  value : Byte
  mask : Byte
  deriving DecidableEq, Repr

/-- A row selects a command byte (R73). -/
def OpRow.selects (r : OpRow) (b : Byte) : Bool := b &&& r.mask == r.value

/-- The opcode map (R73; spec/opcode_table.json). -/
def opcodeMap : List OpRow :=
  [ { mnemonic := "ENCADDR", value := 0x01, mask := 0xFF },
    { mnemonic := "PACK7", value := 0x02, mask := 0xFF },
    { mnemonic := "ASMPDU", value := 0x03, mask := 0xFB } ]

/-- What the decoder reads from the opcode table's numbering: a command is its one byte, bits [7:0] (R71). -/
def decodeTableWord (_nbits w : Nat) : Option Instr :=
  match decode (BitVec.ofNat 8 w) with
  | .ok i => some i
  | .error _ => none

end Sys2Proof
end

