-- ==== Sys2Proof/Machine/State.lean ====
section
/-! DEFINITION. The state of a SeptetPacker as plain data (10_state.md R20 to R39), its value after reset, and the reasons a
step stops. The fields marked MODEL are the model's own; INVENTORY.md lists every field with its rule. -/

namespace Sys2Proof.Machine

/-- STATUS, 2 bits, every value assigned (R24). -/
inductive Status where
  /-- 0b00: OK. -/
  | ok
  /-- 0b01: CapacityError. -/
  | capacityError
  /-- 0b10: FormatError. -/
  | formatError
  /-- 0b11: LengthError. -/
  | lengthError
  deriving DecidableEq, Repr

/-- The three error kinds (R180). -/
inductive ErrKind where
  /-- An output buffer too small (R181). -/
  | capacity
  /-- A non-digit in a digit string (R182). -/
  | format
  /-- A text over 160 septets (R183). -/
  | length
  deriving DecidableEq, Repr

/-- The input spaces (R38); each is read only. -/
inductive InSpace where
  /-- The SMSC digit string, NS bytes. -/
  | digs
  /-- The destination digit string, or the ENCADDR digits, ND bytes. -/
  | digd
  /-- The message text, NT bytes. -/
  | txt
  deriving DecidableEq, Repr

/-- The five configuration registers by name (R27). -/
inductive CfgReg where
  | mti
  | toa
  | pid
  | dcs
  | vp
  deriving DecidableEq, Repr

/-- The configuration registers, 8 bits each (R27). -/
structure CfgRegs where
  mti : Byte
  toa : Byte
  pid : Byte
  dcs : Byte
  vp : Byte
  deriving DecidableEq, Repr

/-- The command interface (R22): CMD, and the operand fields of CAP_W bits each, held as naturals (R7, D21). -/
structure Iface where
  cmd : Byte
  ns : Nat
  nd : Nat
  nt : Nat
  cap : Nat
  deriving DecidableEq, Repr

/-- MODEL. Where the platform places the four buffers in the caller's memory (R58). The block itself sees only the index
within each buffer; the places say which buffers share a byte (R207). Log entry 5. -/
structure Placement where
  digs : Nat
  digd : Nat
  txt : Nat
  out : Nat
  deriving DecidableEq, Repr

/-- STAGE: the seven stages of the PduAssembler (R34, R151). -/
inductive Stage where
  /-- Stage 1, the SMSC field (R153). -/
  | smsc
  /-- Stage 2, message type and reference (R156). -/
  | header
  /-- Stage 3, the destination (R157). -/
  | dest
  /-- Stage 4, PID, DCS and VP (R158). -/
  | consts
  /-- Stage 5, the user-data length (R159). -/
  | udl
  /-- Stage 6, the packed text (R160). -/
  | text
  /-- Stage 7, the end (R161). -/
  | done
  deriving DecidableEq, Repr

/-- The number STAGE holds, 1 to 7 (R34). -/
def Stage.number : Stage → Nat
  | .smsc => 1
  | .header => 2
  | .dest => 3
  | .consts => 4
  | .udl => 5
  | .text => 6
  | .done => 7

/-- MODEL. Which unit procedure is running inside the operation (R191: the unit procedures are parts of a command). -/
inductive RunUnit where
  /-- Between unit procedures. -/
  | idle
  /-- Inside AddrEncode (R101). -/
  | addrEncode
  /-- Inside SeptetPack (R125). -/
  | septetPack
  deriving DecidableEq, Repr

/-- The transient registers of a running operation (R30 to R34), and `unit` (MODEL). -/
structure Transient where
  /-- DI, the digit index (R31). -/
  di : Nat
  /-- WO, bytes written so far by AddrEncode (R31). -/
  wo : Nat
  /-- BASE, the index in OUT of the unit's first byte (R31, R32). -/
  base : Nat
  /-- SRC, the digit string AddrEncode reads (R31). -/
  src : InSpace
  /-- NDIG, the digit count of SRC (R31). -/
  ndig : Nat
  /-- P, the rolling bit-phase, 3 bits (R32, R33). -/
  p : BitVec 3
  /-- I, the input cursor (R32). -/
  i : Nat
  /-- O, bytes written so far by SeptetPack (R32). -/
  o : Nat
  /-- STAGE (R34). -/
  stage : Stage
  /-- W, the write position (R34). -/
  w : Nat
  /-- MODEL: the running unit procedure. -/
  unit : RunUnit
  deriving DecidableEq, Repr

/-- MODE (R26). RUNNING carries the command, so it also carries the flag S of ASMPDU. -/
inductive Mode where
  | idle
  | running (op : Instr)
  deriving DecidableEq, Repr

/-- The open parameters (R7). They are fixed for a machine: no step changes them. Log entries 1 and 2. -/
structure Params where
  /-- MAX_DIGITS, 0 to 255. -/
  maxDigits : Nat
  /-- CAP_W, at least 8. -/
  capW : Nat
  deriving DecidableEq, Repr

/-- MODEL. What the outside does at the interface, one entry per step (R203, R205 to R207, R200). Log entry 6. -/
inductive Request where
  /-- Write a configuration register (R27, R75). -/
  | cfgWrite (r : CfgReg) (v : Byte)
  /-- Say where an input space lies and how long it is: sets NS, ND or NT (R203 step 3). -/
  | setInput (sp : InSpace) (base len : Nat)
  /-- Say where OUT lies and its capacity: sets CAP (R203 step 3). -/
  | setOut (base cap : Nat)
  /-- Another agent, or the caller, writes a byte of memory (R203 step 2, R206). -/
  | memWrite (addr : Nat) (v : Byte)
  /-- Another agent, or the caller, reads a byte of memory (R206). -/
  | memRead (addr : Nat)
  /-- Write CMD, which issues the command, and wait for its result (R203 step 4, R205). -/
  | issue (cmd : Byte)
  /-- Write CMD and go on without waiting: the operation is then RUNNING (R26). -/
  | issueNoWait (cmd : Byte)
  /-- Let the block go on by one step of the running operation (R131). -/
  | tick
  /-- A block reset (R200, R201). -/
  | reset
  deriving DecidableEq, Repr

/-- Memory: (address, byte) pairs of the caller's memory, addresses strictly rising, no byte listed that equals what an
unlisted address reads as. -/
abbrev Memory := List Host.Cell

/-- The canonical form of a memory. -/
abbrev Memory.wf (m : Memory) : Prop :=
  m.Pairwise (fun c d => c.1 < d.1) ∧ ∀ c ∈ m, c.2 ≠ Config.unlistedByte

/-- Why a machine stops with a fault. None happens from a state that meets the invariant (`State.Inv`, Safety.lean):
the spec says that no behaviour of this block is a fault (93_implementation_defined.md). -/
inductive Fault where
  /-- An index at or past the size of an input space was read (R38, R55). Raised by `readIn`. Safe. -/
  | readOutsideSpace (sp : InSpace) (index : Nat)
  /-- An index at or past CAP was to be written (R38, R55). Raised by `writeOut`. Safe. -/
  | writePastCapacity (index : Nat)
  /-- RUNNING with a unit procedure that is no part of the operation, a state no run reaches (R191). Raised by `microStep`. Safe. -/
  | lostSequence
  deriving DecidableEq, Repr

/-- Why a step is refused: the closed list of 60_exceptions.md R187. Each errs toward unprovable (safe). -/
inductive Refusal where
  /-- An instruction without a meaning; raised by no arm of `exec`. Safe. -/
  | notModelled (mnemonic : String)
  /-- CMD matches no row of the opcode map (R74). Raised by `serve`. Safe. -/
  | reservedCommand
  /-- A digit string over MAX_DIGITS (R109). Raised by `accept`. Safe. -/
  | digitStringTooLong
  /-- A configuration register written while RUNNING (R29). Raised by `serve`. Safe. -/
  | configWriteWhileRunning
  /-- A command, or an operand field of the next one, written while RUNNING (R205). Raised by `accept` and `serve`. Safe. -/
  | commandWhileRunning
  /-- OUT shares a byte with an input space (R207). Raised by `accept`. Safe. -/
  | bufferOverlap
  /-- Another agent's access to OUT or an input space while RUNNING (R206). Raised by `serve`. Safe. -/
  | foreignAccess
  deriving DecidableEq, Repr

/-- The machine's state. -/
structure State where
  /-- MODE (R26). -/
  mode : Mode
  /-- The configuration registers (R27). -/
  cfg : CfgRegs
  /-- The command interface (R22). -/
  iface : Iface
  /-- MODEL: where the buffers lie (R58). -/
  place : Placement
  /-- STATUS (R23, R24). -/
  status : Status
  /-- LEN, CAP_W bits (R23). -/
  len : Nat
  /-- The transient registers (R30 to R34). -/
  tr : Transient
  /-- The caller's memory, which holds the four buffers (R38). -/
  mem : Memory
  /-- The open parameters MAX_DIGITS and CAP_W (R7). -/
  params : Params
  /-- MODEL: what the outside will do, oldest first. -/
  requests : List Request
  /-- MODEL: how many draws of free values have been made. -/
  draws : Nat
  deriving DecidableEq, Repr

/-- The reset values of the configuration registers (R27, R39). -/
def CfgRegs.reset : CfgRegs :=
  { mti := Config.resetMti, toa := Config.resetToa, pid := Config.resetPid, dcs := Config.resetDcs, vp := Config.resetVp }

/-- The machine right after reset (R39, R200). The values of the fields that the spec leaves unspecified are DESIGN CHOICEs:
log entry 3. -/
def State.reset : State where
  mode := .idle
  cfg := .reset
  iface := { cmd := 0, ns := 0, nd := 0, nt := 0, cap := 0 }
  place := { digs := 0, digd := 0, txt := 0, out := 0 }
  status := .ok
  len := 0
  tr := { di := 0, wo := 0, base := 0, src := .digd, ndig := 0, p := 1, i := 0, o := 0, stage := .smsc, w := 0, unit := .idle }
  mem := []
  params := { maxDigits := Config.maxDigitsSuggested, capW := Config.capWidthLeast }
  requests := []
  draws := 0

end Sys2Proof.Machine
end

