-- ==== Sys2Proof/Machine/Flags.lean ====
section
/-! DEFINITION. The outcome of an operation: the codes of STATUS (R24), the kinds an error records (R180), and which kind is
reported when two conditions hold at one check point (R104, R124, R163). The block has no other flag (R35). -/

namespace Sys2Proof.Machine

/-- The 2-bit code of a STATUS (R24). -/
def Status.code : Status → BitVec 2
  | .ok => 0b00
  | .capacityError => 0b01
  | .formatError => 0b10
  | .lengthError => 0b11

/-- The STATUS a 2-bit code stands for: every value is assigned (R24). -/
def Status.ofCode (c : BitVec 2) : Status :=
  if c = 0b00 then .ok
  else if c = 0b01 then .capacityError
  else if c = 0b10 then .formatError
  else .lengthError

/-- The STATUS an error kind is recorded as (R180). -/
def ErrKind.status : ErrKind → Status
  | .capacity => .capacityError
  | .format => .formatError
  | .length => .lengthError

/-- The kind reported at a check point with two conditions: none if neither holds, the kind that applies if one holds, and
either one (a free value) if both hold (R104, R124, R189). -/
def pickError (draw : Nat) (first second : Bool) (kind₁ kind₂ : ErrKind) : Option ErrKind :=
  match first, second with
  | false, false => none
  | true, false => some kind₁
  | false, true => some kind₂
  | true, true => some (if Config.freeErrorPick draw then kind₁ else kind₂)

end Sys2Proof.Machine
end

