-- ==== Sys2Proof/Machine/Ops.lean ====
section
/-! DEFINITION. The named operations over memory and registers: reading and writing a byte (R50), the primitives of the
pseudocode (R11), ending an operation by `finish` or by `raise` (R184, R185), and a block reset (R200, R201). -/

namespace Sys2Proof.Machine

/-- `ceil_div(a, b)`, the least q with q*b >= a (R10). -/
def ceilDiv (a b : Nat) : Nat := (a + b - 1) / b

/-- `trunc8(a)`, the low 8 bits (R10). -/
def trunc8 (a : Nat) : Byte := BitVec.ofNat 8 a

/-- The byte of memory at an address. -/
def Memory.read : Memory → Nat → Byte
  | [], _ => Config.unlistedByte
  | (b, v) :: rest, a => if a = b then v else Memory.read rest a

/-- Memory with no entry for an address. -/
def Memory.unlist (m : Memory) (a : Nat) : Memory := m.filter (fun c => c.1 != a)

/-- List a byte at an address that has no entry. -/
def Memory.enlist : Memory → Nat → Byte → Memory
  | [], a, v => [(a, v)]
  | (b, w) :: rest, a, v => if a < b then (a, v) :: (b, w) :: rest else (b, w) :: Memory.enlist rest a v

/-- Store a byte, keeping the canonical form: the byte an unlisted address reads as is not listed. -/
def Memory.write (m : Memory) (a : Nat) (v : Byte) : Memory :=
  if v = Config.unlistedByte then m.unlist a else (m.unlist a).enlist a v

/-- Draw freely the `count` bytes of OUT (at `out`) from index `first` on (R184, R185). -/
def Memory.fillFree (draw out : Nat) : (first count : Nat) → Memory → Memory
  | _, 0, m => m
  | first, count + 1, m =>
    Memory.fillFree draw out (first + 1) count (m.write (out + first) (Config.freeOutByte draw first))

/-- The low CAP_W bits of a value: what a field of CAP_W bits holds (R22, R23). -/
def State.field (s : State) (v : Nat) : Nat := v % 2 ^ s.params.capW

/-- The length of an input space: NS, ND or NT (R38). -/
def State.inSize (s : State) : InSpace → Nat
  | .digs => s.iface.ns
  | .digd => s.iface.nd
  | .txt => s.iface.nt

/-- Where an input space lies (R58). -/
def State.inBase (s : State) : InSpace → Nat
  | .digs => s.place.digs
  | .digd => s.place.digd
  | .txt => s.place.txt

/-- The byte at an index of an input space. -/
def State.inByte (s : State) (sp : InSpace) (k : Nat) : Byte := s.mem.read (s.inBase sp + k)

/-- The byte at an index of OUT. -/
def State.outByte (s : State) (k : Nat) : Byte := s.mem.read (s.place.out + k)

/-- The value of a configuration register, as a read gives it (R28). -/
def CfgRegs.get (c : CfgRegs) : CfgReg → Byte
  | .mti => c.mti
  | .toa => c.toa
  | .pid => c.pid
  | .dcs => c.dcs
  | .vp => c.vp

/-- Write one configuration register (R27, R28: every value is legal). -/
def CfgRegs.set (c : CfgRegs) (r : CfgReg) (v : Byte) : CfgRegs :=
  match r with
  | .mti => { c with mti := v }
  | .toa => { c with toa := v }
  | .pid => { c with pid := v }
  | .dcs => { c with dcs := v }
  | .vp => { c with vp := v }

/-- MODE := m (R26). -/
def State.setMode (s : State) (m : Mode) : State := { s with mode := m }

/-- Replace the configuration registers. -/
def State.setCfg (s : State) (c : CfgRegs) : State := { s with cfg := c }

/-- Replace the memory. -/
def State.setMem (s : State) (m : Memory) : State := { s with mem := m }

/-- Replace the transient registers. -/
def State.setTr (s : State) (t : Transient) : State := { s with tr := t }

/-- CMD := b (R22). -/
def State.setCmd (s : State) (b : Byte) : State := { s with iface := { s.iface with cmd := b } }

/-- Replace what the outside will do. -/
def State.setRequests (s : State) (rs : List Request) : State := { s with requests := rs }

/-- Place an input space and set its length field (R203 step 3). -/
def State.setInput (s : State) (sp : InSpace) (base len : Nat) : State :=
  match sp with
  | .digs => { s with iface := { s.iface with ns := s.field len }, place := { s.place with digs := base } }
  | .digd => { s with iface := { s.iface with nd := s.field len }, place := { s.place with digd := base } }
  | .txt => { s with iface := { s.iface with nt := s.field len }, place := { s.place with txt := base } }

/-- Place OUT and set CAP (R203 step 3). -/
def State.setOut (s : State) (base cap : Nat) : State :=
  { s with iface := { s.iface with cap := s.field cap }, place := { s.place with out := base } }

/-- W := w (R34). -/
def State.setW (s : State) (w : Nat) : State := s.setTr { s.tr with w := w }

/-- STAGE := st (R34). -/
def State.setStage (s : State) (st : Stage) : State := s.setTr { s.tr with stage := st }

/-- Enter or leave a unit procedure. -/
def State.setUnit (s : State) (u : RunUnit) : State := s.setTr { s.tr with unit := u }

/-- Why a running operation goes no further (R11). -/
inductive Halt where
  /-- `raise E` in the state where it stands (R186). -/
  | raised (e : ErrKind) (s : State)
  /-- An access outside a space, or a lost sequence: no run from an accepted command reaches one. -/
  | fault (f : Fault)
  deriving DecidableEq, Repr

/-- The part of an operation that goes on, or halts. -/
abbrev Run (α : Type) := Except Halt α

/-- `MemRead(SP:k, 1)` (R50): an index is addressable exactly when it is below the space's size (R38). -/
def readIn (sp : InSpace) (k : Nat) (s : State) : Run Byte :=
  if k < s.inSize sp then .ok (s.inByte sp k) else .error (.fault (.readOutsideSpace sp k))

/-- `MemWrite(OUT:k, 1, v)` (R50): an index is addressable exactly when it is below CAP (R38). -/
def writeOut (k : Nat) (v : Byte) (s : State) : Run State :=
  if k < s.iface.cap then .ok (s.setMem (s.mem.write (s.place.out + k) v)) else .error (.fault (.writePastCapacity k))

/-- A stage from the value of an unspecified STAGE register. -/
def Stage.ofRegister : Nat → Stage
  | 0 => .smsc
  | 1 => .header
  | 2 => .dest
  | 3 => .consts
  | 4 => .udl
  | 5 => .text
  | _ => .done

/-- An input space from the value of an unspecified SRC register. -/
def InSpace.ofRegister : Nat → InSpace
  | 0 => .digs
  | 1 => .digd
  | _ => .txt

/-- The transient registers while no operation runs: unspecified (R30). -/
def Transient.free (draw : Nat) : Transient where
  di := Config.freeTransient draw 0
  wo := Config.freeTransient draw 1
  base := Config.freeTransient draw 2
  src := .ofRegister (Config.freeTransient draw 3)
  ndig := Config.freeTransient draw 4
  p := BitVec.ofNat 3 (Config.freeTransient draw 5)
  i := Config.freeTransient draw 6
  o := Config.freeTransient draw 7
  stage := .ofRegister (Config.freeTransient draw 8)
  w := Config.freeTransient draw 9
  unit := .idle

/-- `finish Ok(n)` (R11, R185): STATUS = OK, LEN = n, OUT[n .. CAP-1] any value, MODE = IDLE; the transient registers no
longer hold a value (R30). -/
def finish (n : Nat) (s : State) : State :=
  { s with
    mode := .idle
    status := .ok
    len := n
    tr := .free s.draws
    mem := s.mem.fillFree s.draws s.place.out n (s.iface.cap - n)
    draws := s.draws + 1 }

/-- `raise E` (R11, R184): STATUS = code(E), LEN any value, OUT[0 .. CAP-1] any value, MODE = IDLE. The one way an error is
taken: nothing is saved, no vector is taken (R186), and there is no return from it (R191). -/
def raiseError (e : ErrKind) (s : State) : State :=
  { s with
    mode := .idle
    status := e.status
    len := s.field (Config.freeLen s.draws)
    tr := .free s.draws
    mem := s.mem.fillFree s.draws s.place.out 0 s.iface.cap
    draws := s.draws + 1 }

/-- The operand fields after a block reset: unspecified (R39). -/
def State.freeIface (s : State) : Iface where
  cmd := Config.freeCmd s.draws
  ns := s.field (Config.freeOperand s.draws 0)
  nd := s.field (Config.freeOperand s.draws 1)
  nt := s.field (Config.freeOperand s.draws 2)
  cap := s.field (Config.freeOperand s.draws 3)

/-- Memory after a block reset: unchanged (R39), but OUT[0 .. CAP-1] any value where an operation was running (R201). -/
def State.memAfterReset (s : State) : Memory :=
  match s.mode with
  | .idle => s.mem
  | .running _ => s.mem.fillFree s.draws s.place.out 0 s.iface.cap

/-- A block reset (R200, R201). -/
def blockReset (s : State) : State :=
  { s with
    mode := .idle
    cfg := .reset
    iface := s.freeIface
    status := .ofCode (Config.freeStatus s.draws)
    len := s.field (Config.freeLen s.draws)
    tr := .free s.draws
    mem := s.memAfterReset
    draws := s.draws + 1 }

/-- The outcome of an operation: a raise is a result, not a stop (R186). -/
def conclude : Run State → Host.Outcome State Fault Refusal
  | .ok s => .next s
  | .error (.raised e s) => .next (raiseError e s)
  | .error (.fault f) => .fault f

/-- What the caller may read of the result (R23, R25, R209): nothing while an operation runs, the kind alone after an error,
STATUS and LEN after OK. -/
def State.result (s : State) : Option (Status × Option Nat) :=
  match s.mode, s.status with
  | .running _, _ => none
  | .idle, .ok => some (.ok, some s.len)
  | .idle, e => some (e, none)

/-- What the caller may read of a configuration register: in IDLE the value it holds (R27, R28). -/
def State.cfgRead (s : State) (r : CfgReg) : Option Byte :=
  match s.mode with
  | .idle => some (s.cfg.get r)
  | .running _ => none

end Sys2Proof.Machine
end

