-- ==== Sys2Proof/Machine/Operands.lean ====
section
/-! DEFINITION. The operands of the commands (30_encoding.md R72): characters (R12, R102, R121), the spaces a command reads, the
buffers that may not share a byte (R207), and the acceptance of a command (R26, R187, R202). -/

namespace Sys2Proof.Machine

/-- A byte is a digit exactly when 0x30 <= c <= 0x39 (R102). -/
def isDigit (c : Byte) : Bool := 0x30 ≤ c.toNat && c.toNat ≤ 0x39

/-- The value of a digit, 0 to 9 (R12, R102). -/
def digit (c : Byte) : Nibble := (c - 0x30).setWidth 4

/-- The septet of a text character: the low 7 bits (R12, R121). -/
def septet (c : Byte) : Septet := c.setWidth 7

/-- Which input spaces a command reads (R72). -/
def reads : Instr → List InSpace
  | .encaddr => [.digd]
  | .pack7 => [.txt]
  | .asmpdu false => [.digd, .txt]
  | .asmpdu true => [.digs, .digd, .txt]

/-- Two buffers, each a start and a length, share a byte. -/
def shareByte (a n b m : Nat) : Bool := max a b < min (a + n) (b + m)

/-- OUT shares a byte with DIGS, DIGD or TXT (R207). Log entry 7. -/
def State.outOverlaps (s : State) : Bool :=
  [InSpace.digs, .digd, .txt].any fun sp => shareByte s.place.out s.iface.cap (s.inBase sp) (s.inSize sp)

/-- An address lies in OUT (R38). -/
def State.inOut (s : State) (a : Nat) : Bool := s.place.out ≤ a && a < s.place.out + s.iface.cap

/-- An address lies in DIGS, DIGD or TXT (R38). -/
def State.inInputs (s : State) (a : Nat) : Bool :=
  [InSpace.digs, .digd, .txt].any fun sp => s.inBase sp ≤ a && a < s.inBase sp + s.inSize sp

/-- A digit string the command reads is longer than MAX_DIGITS (R109, R187). -/
def State.digitsTooLong (s : State) (i : Instr) : Bool :=
  match i with
  | .encaddr => s.params.maxDigits < s.iface.nd
  | .pack7 => false
  | .asmpdu smsc => (smsc && s.params.maxDigits < s.iface.ns) || s.params.maxDigits < s.iface.nd

/-- The transient registers at the start of an operation (R202). BASE, SRC and NDIG take their values when a unit procedure
starts (R31, R32). -/
def Transient.start (t : Transient) : Transient :=
  { t with p := 1, i := 0, o := 0, di := 0, wo := 0, stage := .smsc, w := 0, unit := .idle }

/-- The state in which a command runs: MODE = RUNNING(op) (R26), transient registers at their start values (R202). -/
def started (i : Instr) (s : State) : State := (s.setTr s.tr.start).setMode (.running i)

/-- Why a command is refused when it is issued, if it is (R187, R189). -/
def refusal? (i : Instr) (s : State) : Option Refusal :=
  if s.mode ≠ .idle then some .commandWhileRunning
  else if s.digitsTooLong i then some .digitStringTooLong
  else if s.outOverlaps then some .bufferOverlap
  else none

/-- Accept a command, or refuse it before any of its effects (R26, R187, R189). -/
def accept (i : Instr) (s : State) : Except Refusal State :=
  match refusal? i s with
  | some r => .error r
  | none => .ok (started i s)

/-- A command as the caller sees it, one transaction (R26, R57): accept it, run `body` to its end, answer the result. -/
def transact (i : Instr) (body : State → Run State) (s : State) : Host.Outcome State Fault Refusal :=
  match accept i s with
  | .error r => .refused r
  | .ok s₁ => conclude (body s₁)

/-- `Emit(v)`, the checked single-byte write at W (R151). -/
def emit (v : Byte) (s : State) : Run State :=
  if s.iface.cap ≤ s.tr.w then .error (.raised .capacity s)
  else do
    let s₁ ← writeOut s.tr.w v s
    .ok (s₁.setW (s.tr.w + 1))

end Sys2Proof.Machine
end

