-- ==== Sys2Proof/Machine/PhoneNumber.lean ====
section
/-! DEFINITION. The PhoneNumberEncoder unit (40_phone_number_encoder.md): AddrEncode (R101) and the command ENCADDR (R100). -/

namespace Sys2Proof.Machine

/-- The address byte of two nibbles, `{hi, lo}` (R10, R52). -/
def addrByte (lo hi : Nibble) : Byte := hi ++ lo

/-- Whether the first `n` bytes of an input space are all digits (R102); each is read once. -/
def digitsOk (sp : InSpace) : Nat → State → Run Bool
  | 0, _ => .ok true
  | n + 1, s => do
    let c ← readIn sp n s
    let rest ← digitsOk sp n s
    .ok (isDigit c && rest)

/-- The start of AddrEncode: the error check (R101, R104), then DI := 0, WO := 0. -/
def addrEnter (src : InSpace) (ndig base capr : Nat) (s : State) : Run State := do
  let digits ← digitsOk src ndig s
  match pickError s.draws (capr < ceilDiv ndig 2) (!digits) .capacity .format with
  | some e => .error (.raised e s)
  | none =>
    .ok (s.setTr { s.tr with src := src, ndig := ndig, base := base, di := 0, wo := 0, unit := .addrEncode })

/-- The high nibble of the byte at DI: the digit at DI + 1, or the pad if there is none (R101, R106). -/
def highNibble (s : State) : Run Nibble :=
  if s.tr.di + 1 < s.tr.ndig then do
    let d ← readIn s.tr.src (s.tr.di + 1) s
    .ok (digit d)
  else .ok Config.padNibble

/-- One turn of AddrEncode's loop: the byte of the digits at DI and DI + 1, or of the last digit and the pad (R101). -/
def addrIter (s : State) : Run State := do
  let lo ← readIn s.tr.src s.tr.di s
  let hi ← highNibble s
  let s₁ ← writeOut (s.tr.base + s.tr.wo) (addrByte (digit lo) hi) s
  .ok (s₁.setTr { s.tr with wo := s.tr.wo + 1, di := s.tr.di + 2 })

/-- AddrEncode's loop, `while DI < NDIG` (R101); NDIG turns are always enough. -/
def addrLoop : Nat → State → Run State
  | 0, s => .ok s
  | n + 1, s => if s.tr.di < s.tr.ndig then addrIter s >>= addrLoop n else .ok s

/-- `AddrEncode(SRC, NDIG, BASE, CAPR)` (R101); the count it returns is WO. -/
def addrEncode (src : InSpace) (ndig base capr : Nat) (s : State) : Run State := do
  let s₁ ← addrEnter src ndig base capr s
  addrLoop ndig s₁

/-- The body of ENCADDR (R100). -/
def encAddrBody (s : State) : Run State := do
  let s₁ ← addrEncode .digd s.iface.nd 0 s.iface.cap s
  .ok (finish s₁.tr.wo s₁)

/-- ENCADDR (R100). -/
def execEncAddr (s : State) : Host.Outcome State Fault Refusal := transact .encaddr encAddrBody s

end Sys2Proof.Machine
end

