-- ==== Sys2Proof/Machine/Septets.lean ====
section
/-! DEFINITION. The SeptetPacker unit (41_septet_packer.md): SeptetPack (R125) and the command PACK7 (R120). N is NT, the length
of TXT, wherever the unit is used (R120, R160). -/

namespace Sys2Proof.Machine

/-- L, the bytes that N septets pack into (R122). -/
def packedLength (n : Nat) : Nat := ceilDiv (7 * n) 8

/-- The main-pass byte at phase P: `trunc8((a >> (P-1)) | (b << (8-P)))` (R125, R126). -/
def phaseByte (p : Nat) (a b : Septet) : Byte := trunc8 ((a.toNat >>> (p - 1)) ||| (b.toNat <<< (8 - p)))

/-- The leftover byte at phase P: `a >> (P-1)` (R128). -/
def leftoverByte (p : Nat) (a : Septet) : Byte := trunc8 (a.toNat >>> (p - 1))

/-- The start of SeptetPack: the error check (R123, R124), then P := 1, I := 0, O := 0. -/
def septetEnter (base capr : Nat) (s : State) : Run State :=
  match pickError s.draws (Config.maxText < s.iface.nt) (capr < packedLength s.iface.nt) .length .capacity with
  | some e => .error (.raised e s)
  | none => .ok (s.setTr { s.tr with base := base, p := 1, i := 0, o := 0, unit := .septetPack })

/-- The phase and cursor after a main-pass byte: P + 1 and I + 1, and at P = 8 back to 1 with one more place (R125, R127). -/
def nextPhase (t : Transient) : Transient :=
  if t.p.toNat + 1 = 8 then { t with p := 1, i := t.i + 2, o := t.o + 1 }
  else { t with p := BitVec.ofNat 3 (t.p.toNat + 1), i := t.i + 1, o := t.o + 1 }

/-- One step of the main pass: one byte from the pair (s_I, s_(I+1)) (R125). -/
def septetIter (s : State) : Run State := do
  let a ← readIn .txt s.tr.i s
  let b ← readIn .txt (s.tr.i + 1) s
  let s₁ ← writeOut (s.tr.base + s.tr.o) (phaseByte s.tr.p.toNat (septet a) (septet b)) s
  .ok (s₁.setTr (nextPhase s.tr))

/-- The main pass, `while I + 1 < N` (R125); N steps are always enough (R131). -/
def septetLoop : Nat → State → Run State
  | 0, s => .ok s
  | n + 1, s => if s.tr.i + 1 < s.iface.nt then septetIter s >>= septetLoop n else .ok s

/-- The leftover: at most one septet is left, and it gives one more byte (R125, R128). -/
def septetLeftover (s : State) : Run State :=
  if s.tr.i < s.iface.nt then do
    let a ← readIn .txt s.tr.i s
    let s₁ ← writeOut (s.tr.base + s.tr.o) (leftoverByte s.tr.p.toNat (septet a)) s
    .ok (s₁.setTr { s.tr with o := s.tr.o + 1 })
  else .ok s

/-- `SeptetPack(N, BASE, CAPR)` with N = NT (R125); the count it returns is O. -/
def septetPack (base capr : Nat) (s : State) : Run State := do
  let s₁ ← septetEnter base capr s
  let s₂ ← septetLoop s.iface.nt s₁
  septetLeftover s₂

/-- The body of PACK7 (R120). -/
def pack7Body (s : State) : Run State := do
  let s₁ ← septetPack 0 s.iface.cap s
  .ok (finish s₁.tr.o s₁)

/-- PACK7 (R120). -/
def execPack7 (s : State) : Host.Outcome State Fault Refusal := transact .pack7 pack7Body s

end Sys2Proof.Machine
end

