-- ==== Sys2Proof/Machine/Pdu.lean ====
section
/-! DEFINITION. The PduAssembler unit (42_pdu_assembler.md): the seven stages of ASMPDU (R151) and the command (R150). -/

namespace Sys2Proof.Machine

/-- The fixed bytes a stage emits, before any unit procedure it runs (R151, R153 to R159). -/
def stageBytes (smsc : Bool) (st : Stage) (s : State) : List Byte :=
  match st with
  | .smsc => if smsc then [trunc8 (1 + ceilDiv s.iface.ns 2), s.cfg.toa] else [0x00]
  | .header => [s.cfg.mti, Config.messageReference]
  | .dest => [trunc8 s.iface.nd, s.cfg.toa]
  | .consts => [s.cfg.pid, s.cfg.dcs, s.cfg.vp]
  | .udl => [trunc8 s.iface.nt]
  | .text => []
  | .done => []

/-- `Emit` each of some bytes in turn (R151). -/
def emitAll : List Byte → State → Run State
  | [], s => .ok s
  | v :: vs, s => emit v s >>= emitAll vs

/-- The fixed bytes of a stage. -/
def stageEmit (smsc : Bool) (st : Stage) (s : State) : Run State := emitAll (stageBytes smsc st s) s

/-- `W <- W + AddrEncode(…)`, the end of an address (R151). -/
def addrReturn (s : State) : State := s.setTr { s.tr with w := s.tr.w + s.tr.wo, unit := .idle }

/-- `W <- W + SeptetPack(…)`, the end of the user data (R151). -/
def septetReturn (s : State) : State := s.setTr { s.tr with w := s.tr.w + s.tr.o, unit := .idle }

/-- An address in ASMPDU: AddrEncode at W with the capacity left (R151, D18). -/
def pduAddr (src : InSpace) (ndig : Nat) (s : State) : Run State := do
  let s₁ ← addrEncode src ndig s.tr.w (s.iface.cap - s.tr.w) s
  .ok (addrReturn s₁)

/-- The user data in ASMPDU: SeptetPack at W with the capacity left (R151, D18). -/
def pduText (s : State) : Run State := do
  let s₁ ← septetPack s.tr.w (s.iface.cap - s.tr.w) s
  .ok (septetReturn s₁)

/-- Stage 1 (R153). -/
def stageSmsc (smsc : Bool) (s : State) : Run State := do
  let s₁ ← stageEmit smsc .smsc s
  if smsc then pduAddr .digs s₁.iface.ns s₁ else .ok s₁

/-- Stage 3 (R157). -/
def stageDest (smsc : Bool) (s : State) : Run State := do
  let s₁ ← stageEmit smsc .dest s
  pduAddr .digd s₁.iface.nd s₁

/-- The body of ASMPDU: the stages 1 to 7 in order, no branching back (R151); W = 0 and STAGE = 1 at its start (R202). -/
def asmPduBody (smsc : Bool) (s : State) : Run State := do
  let s₁ ← stageSmsc smsc s
  let s₂ ← stageEmit smsc .header (s₁.setStage .header)
  let s₃ ← stageDest smsc (s₂.setStage .dest)
  let s₄ ← stageEmit smsc .consts (s₃.setStage .consts)
  let s₅ ← stageEmit smsc .udl (s₄.setStage .udl)
  let s₆ ← pduText (s₅.setStage .text)
  .ok (finish s₆.tr.w (s₆.setStage .done))

/-- ASMPDU (R150); `smsc` is the flag S. -/
def execAsmPdu (smsc : Bool) (s : State) : Host.Outcome State Fault Refusal :=
  transact (.asmpdu smsc) (asmPduBody smsc) s

end Sys2Proof.Machine
end

