-- ==== Sys2Proof/Machine/Dispatch.lean ====
section
/-! DEFINITION. One arm per command, each a direct call of its meaning. -/

namespace Sys2Proof.Machine

/-- The meaning of a command, as one transaction (R26). -/
def exec (i : Instr) (s : State) : Host.Outcome State Fault Refusal :=
  match i with
  | .encaddr => Sys2Proof.Machine.execEncAddr s
  | .pack7 => Sys2Proof.Machine.execPack7 s
  | .asmpdu smsc => Sys2Proof.Machine.execAsmPdu smsc s

end Sys2Proof.Machine
end

