-- ==== Sys2Proof/Machine/Micro.lean ====
section
/-! DEFINITION. The block one small step at a time while MODE is RUNNING (41_septet_packer.md R131; 10_state.md R21, R26, R34). A step
is the start of a unit procedure with the fixed bytes before it, one turn of a unit's loop, or its end. The transient
registers are the whole sequencing state. -/

namespace Sys2Proof.Machine

/-- The end of AddrEncode: ENCADDR finishes with WO (R100); ASMPDU moves W and goes on to the next stage (R151). -/
def addrEnd (op : Instr) (s : State) : Run State :=
  match op, s.tr.stage with
  | .encaddr, _ => .ok (finish s.tr.wo s)
  | .asmpdu true, .smsc => .ok ((addrReturn s).setStage .header)
  | .asmpdu _, .dest => .ok ((addrReturn s).setStage .consts)
  | _, _ => .error (.fault .lostSequence)

/-- The end of SeptetPack: PACK7 finishes with O (R120); ASMPDU moves W and goes on to stage 7 (R151). -/
def septetEnd (op : Instr) (s : State) : Run State :=
  match op, s.tr.stage with
  | .pack7, _ => .ok (finish s.tr.o s)
  | .asmpdu _, .text => .ok ((septetReturn s).setStage .done)
  | _, _ => .error (.fault .lostSequence)

/-- What follows the fixed bytes of a stage of ASMPDU: a unit procedure starts, the next stage starts, or the operation ends. -/
def stageAfter (smsc : Bool) (st : Stage) (s : State) : Run State :=
  match st with
  | .smsc =>
    if smsc then addrEnter .digs s.iface.ns s.tr.w (s.iface.cap - s.tr.w) s else .ok (s.setStage .header)
  | .header => .ok (s.setStage .dest)
  | .dest => addrEnter .digd s.iface.nd s.tr.w (s.iface.cap - s.tr.w) s
  | .consts => .ok (s.setStage .udl)
  | .udl => .ok (s.setStage .text)
  | .text => septetEnter s.tr.w (s.iface.cap - s.tr.w) s
  | .done => .ok (finish s.tr.w s)

/-- One step between unit procedures. -/
def sequenceStep (op : Instr) (s : State) : Run State :=
  match op with
  | .encaddr => addrEnter .digd s.iface.nd 0 s.iface.cap s
  | .pack7 => septetEnter 0 s.iface.cap s
  | .asmpdu smsc => do
    let s₁ ← stageEmit smsc s.tr.stage s
    stageAfter smsc s.tr.stage s₁

/-- One step inside AddrEncode (R101). -/
def addrStep (op : Instr) (s : State) : Run State :=
  if s.tr.di < s.tr.ndig then addrIter s else addrEnd op s

/-- One step inside SeptetPack: of the main pass, or the leftover with the end (R125, R131). -/
def septetStep (op : Instr) (s : State) : Run State :=
  if s.tr.i + 1 < s.iface.nt then septetIter s
  else do
    let s₁ ← septetLeftover s
    septetEnd op s₁

/-- One small step of the running operation `op`. -/
def runStep (op : Instr) (s : State) : Run State :=
  match s.tr.unit with
  | .idle => sequenceStep op s
  | .addrEncode => addrStep op s
  | .septetPack => septetStep op s

/-- One small step of the block: in IDLE it waits for a command (R200). -/
def microStep (s : State) : Run State :=
  match s.mode with
  | .idle => .ok s
  | .running op => runStep op s

end Sys2Proof.Machine
end

