-- ==== Sys2Proof/Machine/Interface.lean ====
section
/-! DEFINITION. What the outside does at the interface, and what the block answers (10_state.md R22, R26 to R29; 70_reset_and_hazards.md R200 to
R207). -/

namespace Sys2Proof.Machine

/-- MODE is RUNNING (R26). -/
def Mode.isRunning : Mode → Bool
  | .idle => false
  | .running _ => true

/-- A write to a configuration register: legal while IDLE (R27), refused while RUNNING (R29). -/
def serveCfgWrite (r : CfgReg) (v : Byte) (s : State) : Host.Outcome State Fault Refusal :=
  if s.mode.isRunning then .refused .configWriteWhileRunning else .next (s.setCfg (s.cfg.set r v))

/-- A write to an operand field: before the operation starts (R22, R203); while RUNNING it is part of the next command (R205).
DESIGN CHOICE: log entry 10. -/
def serveOperands (set : State → State) (s : State) : Host.Outcome State Fault Refusal :=
  if s.mode.isRunning then .refused .commandWhileRunning else .next (set s)

/-- An access to this address is a foreign access: the operation runs, and the address lies in OUT or an input space (60_exceptions.md
R187, R206). Reads and writes alike, DEDUCED: log entry 11. -/
def State.foreign (s : State) (a : Nat) : Bool := s.mode.isRunning && (s.inOut a || s.inInputs a)

/-- A write to memory by the caller or another agent (R187, R203 step 2, R206). -/
def serveMemWrite (a : Nat) (v : Byte) (s : State) : Host.Outcome State Fault Refusal :=
  if s.foreign a then .refused .foreignAccess else .next (s.setMem (s.mem.write a v))

/-- A read of memory by the caller or another agent (R187, R206). A read changes nothing (R56). -/
def serveMemRead (a : Nat) (s : State) : Host.Outcome State Fault Refusal :=
  if s.foreign a then .refused .foreignAccess else .next s

/-- CMD written, the caller waiting for the result: the command runs as one transaction (R26, R57, R74). -/
def serveIssue (b : Byte) (s : State) : Host.Outcome State Fault Refusal :=
  match decode b with
  | .error _ => .refused .reservedCommand
  | .ok i => exec i (s.setCmd b)

/-- CMD written, the caller not waiting: the command is accepted and MODE is RUNNING (R26, R74). -/
def serveIssueNoWait (b : Byte) (s : State) : Host.Outcome State Fault Refusal :=
  match decode b with
  | .error _ => .refused .reservedCommand
  | .ok i =>
    match accept i (s.setCmd b) with
    | .error r => .refused r
    | .ok s₁ => .next s₁

/-- One action at the interface. -/
def serve (r : Request) (s : State) : Host.Outcome State Fault Refusal :=
  match r with
  | .cfgWrite reg v => serveCfgWrite reg v s
  | .setInput sp base len => serveOperands (fun s => s.setInput sp base len) s
  | .setOut base cap => serveOperands (fun s => s.setOut base cap) s
  | .memWrite a v => serveMemWrite a v s
  | .memRead a => serveMemRead a s
  | .issue b => serveIssue b s
  | .issueNoWait b => serveIssueNoWait b s
  | .tick => conclude (microStep s)
  | .reset => .next (blockReset s)

end Sys2Proof.Machine
end

