-- ==== Sys2Proof/Machine/Step.lean ====
section
/-! DEFINITION. One step of the machine: the oldest action at the interface, or, where the outside does nothing, one small step of the
block. Commands are not fetched from memory (20_memory.md R64): they arrive at the interface. -/

namespace Sys2Proof.Machine

/-- One step. -/
def step (s : State) : Host.Outcome State Fault Refusal :=
  match s.requests with
  | [] => conclude (microStep s)
  | r :: rest => serve r (s.setRequests rest)

/-- The state in which the next step runs the command byte `w`: the caller's write of CMD (R203 step 4) comes first of what the
outside does. Log entry 6. -/
def State.withFetchWord (s : State) (_nbits w : Nat) : State :=
  s.setRequests (.issue (BitVec.ofNat 8 w) :: s.requests)

end Sys2Proof.Machine
end

