-- ==== Sys2Proof/Machine/Assembler.lean ====
section
/-! DEFINITION. The lines of the spec's assembler (30_encoding.md R75), the interface actions each stands for, in the order the caller
owes (70_reset_and_hazards.md R203), and the reading of a line from its characters. -/

namespace Sys2Proof.Machine

/-- A line of the assembler; `<bytes>` is a list of bytes (R75). -/
inductive AsmLine where
  /-- `ENCADDR cap=<n>, d=<bytes>` -/
  | encaddr (cap : Nat) (d : List Byte)
  /-- `PACK7 cap=<n>, t=<bytes>` -/
  | pack7 (cap : Nat) (t : List Byte)
  /-- `ASMPDU cap=<n>, [s=<bytes>,] d=<bytes>, t=<bytes>` -/
  | asmpdu (cap : Nat) (s : Option (List Byte)) (d t : List Byte)
  /-- `CFG_<name> := <byte>`: an interface write, not a command -/
  | cfg (r : CfgReg) (v : Byte)
  deriving DecidableEq, Repr

/-- Write bytes to memory one after the other from an address on. -/
def storeBytes : Nat → List Byte → List Request
  | _, [] => []
  | a, v :: vs => .memWrite a v :: storeBytes (a + 1) vs

/-- `d=`, `s=` or `t=`: fill an input space and set its length (R75). -/
def giveInput (sp : InSpace) (base : Nat) (bytes : List Byte) : List Request :=
  storeBytes base bytes ++ [.setInput sp base bytes.length]

/-- The interface actions of a line, with the buffers at the places `at_` (R203 steps 2 to 4). -/
def AsmLine.requests (at_ : Placement) : AsmLine → List Request
  | .encaddr cap d => giveInput .digd at_.digd d ++ [.setOut at_.out cap, .issue (encode .encaddr)]
  | .pack7 cap t => giveInput .txt at_.txt t ++ [.setOut at_.out cap, .issue (encode .pack7)]
  | .asmpdu cap none d t =>
    giveInput .digd at_.digd d ++ giveInput .txt at_.txt t ++ [.setOut at_.out cap, .issue (encode (.asmpdu false))]
  | .asmpdu cap (some sm) d t =>
    giveInput .digs at_.digs sm ++ giveInput .digd at_.digd d ++ giveInput .txt at_.txt t ++
      [.setOut at_.out cap, .issue (encode (.asmpdu true))]
  | .cfg r v => [.cfgWrite r v]

/-! ### Reading a line -/

/-- The value of a hexadecimal digit. -/
def hexValue (c : Char) : Option Nat :=
  let n := c.toNat
  if 0x30 ≤ n && n ≤ 0x39 then some (n - 0x30)
  else if 0x41 ≤ n && n ≤ 0x46 then some (n - 0x41 + 10)
  else if 0x61 ≤ n && n ≤ 0x66 then some (n - 0x61 + 10)
  else none

/-- The digits of a natural in a base, most significant first, from the value so far. -/
def readDigits (base : Nat) : Nat → List Char → Option Nat
  | acc, [] => some acc
  | acc, c :: cs =>
    match hexValue c with
    | none => none
    | some d => if d < base then readDigits base (acc * base + d) cs else none

/-- `<n>`: a decimal or 0x-hex natural (R75). -/
def readNatural : List Char → Option Nat
  | [] => none
  | ['0', 'x'] => none
  | '0' :: 'x' :: cs => readDigits 16 0 cs
  | cs => readDigits 10 0 cs

/-- A line cut at its commas, quotes and brackets kept whole, up to a comment; `quoted` and `listed` say what is open, `cur` is
the piece so far, last character first. Spaces outside quotes are dropped. -/
def cutLine : (quoted listed : Bool) → (cur : List Char) → List Char → List (List Char)
  | _, _, cur, [] => [cur.reverse]
  | true, l, cur, c :: cs => cutLine (c ≠ '"') l (c :: cur) cs
  | false, l, cur, c :: cs =>
    if c = '"' then cutLine true l (c :: cur) cs
    else if c = ' ' then cutLine false l cur cs
    else if c = ';' then [cur.reverse]
    else if c = ',' && !l then cur.reverse :: cutLine false l [] cs
    else if c = '[' then cutLine false true (c :: cur) cs
    else if c = ']' then cutLine false false (c :: cur) cs
    else cutLine false l (c :: cur) cs

/-- A byte value. -/
def readByte (cs : List Char) : Option Byte :=
  match readNatural cs with
  | some n => if n < 256 then some (BitVec.ofNat 8 n) else none
  | none => none

/-- The byte values between the brackets of a list. -/
def readItems : List (List Char) → Option (List Byte)
  | [] => some []
  | cs :: rest =>
    match readByte cs, readItems rest with
    | some b, some bs => some (b :: bs)
    | _, _ => none

/-- The bytes of a quoted string up to its closing quote: one byte per ASCII character, no terminator (R75). -/
def readQuoted : List Char → Option (List Byte)
  | ['"'] => some []
  | [] => none
  | c :: cs =>
    if c.toNat < 128 && c ≠ '"' then
      match readQuoted cs with
      | some bs => some (BitVec.ofNat 8 c.toNat :: bs)
      | none => none
    else none

/-- `<bytes>`: a quoted string or a bracketed list of byte values (R75). -/
def readBytes (cs : List Char) : Option (List Byte) :=
  match cs with
  | '"' :: rest => readQuoted rest
  | ['[', ']'] => some []
  | '[' :: rest => if rest.getLast? = some ']' then readItems (cutLine false false [] rest.dropLast) else none
  | _ => none

/-- The configuration register of a name. -/
def readReg (cs : List Char) : Option CfgReg :=
  if cs = ['M', 'T', 'I'] then some .mti
  else if cs = ['T', 'O', 'A'] then some .toa
  else if cs = ['P', 'I', 'D'] then some .pid
  else if cs = ['D', 'C', 'S'] then some .dcs
  else if cs = ['V', 'P'] then some .vp
  else none

/-- `CFG_<name> := <byte>`, after `CFG_` and without its spaces (R75). -/
def readCfg (cs : List Char) : Option AsmLine :=
  match readReg (cs.takeWhile (· ≠ ':')), cs.dropWhile (· ≠ ':') with
  | some r, ':' :: '=' :: v => (readByte v).map (AsmLine.cfg r)
  | _, _ => none

/-- The operands of a line in the one order R75 gives them, after the mnemonic. -/
def readOperands (i : Instr) (pieces : List (List Char)) : Option AsmLine :=
  match i, pieces with
  | .encaddr, [n, 'd' :: '=' :: d] =>
    match readNatural n, readBytes d with
    | some n, some d => some (.encaddr n d)
    | _, _ => none
  | .pack7, [n, 't' :: '=' :: t] =>
    match readNatural n, readBytes t with
    | some n, some t => some (.pack7 n t)
    | _, _ => none
  | .asmpdu false, [n, 'd' :: '=' :: d, 't' :: '=' :: t] =>
    match readNatural n, readBytes d, readBytes t with
    | some n, some d, some t => some (.asmpdu n none d t)
    | _, _, _ => none
  | .asmpdu true, [n, 's' :: '=' :: s, 'd' :: '=' :: d, 't' :: '=' :: t] =>
    match readNatural n, readBytes s, readBytes d, readBytes t with
    | some n, some s, some d, some t => some (.asmpdu n (some s) d t)
    | _, _, _, _ => none
  | _, _ => none

/-- A line of the assembler from its characters (R75); none where they are no line. -/
def readLine (cs : List Char) : Option AsmLine :=
  match cutLine false false [] cs with
  | ('E' :: 'N' :: 'C' :: 'A' :: 'D' :: 'D' :: 'R' :: 'c' :: 'a' :: 'p' :: '=' :: n) :: rest => readOperands .encaddr (n :: rest)
  | ('P' :: 'A' :: 'C' :: 'K' :: '7' :: 'c' :: 'a' :: 'p' :: '=' :: n) :: rest => readOperands .pack7 (n :: rest)
  | ('A' :: 'S' :: 'M' :: 'P' :: 'D' :: 'U' :: 'c' :: 'a' :: 'p' :: '=' :: n) :: rest =>
    readOperands (.asmpdu (rest.length = 3)) (n :: rest)
  | [('C' :: 'F' :: 'G' :: '_' :: name)] => readCfg name
  | _ => none

end Sys2Proof.Machine
end

