-- ==== Sys2Proof/Machine/Consumer.lean ====
section
/-! DEFINITION. The boundary contract of the transport that consumes a PDU (42_pdu_assembler.md R166). The block does none of it; it is here so
that a consumer can be checked against the block's output. -/

namespace Sys2Proof.Machine

/-- (a) The send command's length parameter: T minus the SMSC part. -/
def consumerLength (t : Nat) (out0 : Byte) : Nat := t - 1 - out0.toNat

/-- The upper-case ASCII hex digit of a nibble. -/
def hexDigit (n : Nibble) : Byte := if n.toNat < 10 then trunc8 (0x30 + n.toNat) else trunc8 (0x41 + (n.toNat - 10))

/-- (b) Bytes as upper-case ASCII hex, two digits a byte. -/
def hexRender : List Byte → List Byte
  | [] => []
  | b :: bs => hexDigit (b.extractLsb' 4 4) :: hexDigit (b.extractLsb' 0 4) :: hexRender bs

/-- (b) and (c): what the transport sends, ended with 0x1A. -/
def transmission (bytes : List Byte) : List Byte := hexRender bytes ++ [0x1A]

end Sys2Proof.Machine
end

