-- ==== Sys2Proof/Safety.lean ====
section
/-! DEFINITION. The terms claims use: when a command is accepted, what its rules say it writes and reports, in closed form, and the
invariant of the machine. Nothing here is called by the machine. -/

namespace Sys2Proof.Machine

/-! ### When a command runs -/

/-- No digit string the command reads is longer than MAX_DIGITS (R109). -/
def State.DigitsFit (s : State) : Instr → Prop
  | .encaddr => s.iface.nd ≤ s.params.maxDigits
  | .pack7 => True
  | .asmpdu smsc => (smsc = true → s.iface.ns ≤ s.params.maxDigits) ∧ s.iface.nd ≤ s.params.maxDigits

/-- OUT shares no byte with an input space (R207). -/
def State.Apart (s : State) : Prop :=
  ∀ sp k j, k < s.iface.cap → j < s.inSize sp → s.place.out + k ≠ s.inBase sp + j

/-- Nothing refuses the command: the block is IDLE (R26), no digit string it reads is longer than MAX_DIGITS (R109), and OUT
shares no byte with an input space (R207). -/
def State.accepts (s : State) (i : Instr) : Prop := s.mode = .idle ∧ s.DigitsFit i ∧ s.Apart

/-- An address lies in OUT[0 .. CAP-1] (R38). -/
def State.InOut (s : State) (a : Nat) : Prop := ∃ k, k < s.iface.cap ∧ a = s.place.out + k

/-- An address lies in an input space (R38). -/
def State.InInput (s : State) (sp : InSpace) (a : Nat) : Prop := ∃ k, k < s.inSize sp ∧ a = s.inBase sp + k

/-- The first `n` bytes of an input space are digits (R102). -/
def State.DigitString (s : State) (sp : InSpace) (n : Nat) : Prop :=
  ∀ k, k < n → 0x30 ≤ (s.inByte sp k).toNat ∧ (s.inByte sp k).toNat ≤ 0x39

/-! ### What the rules say is written -/

/-- Byte k of the encoded address of the first `n` digits (R105, R106): the first digit of the pair in the low nibble, the second,
or the pad 0xF, in the high nibble. -/
def State.addrOut (s : State) (sp : InSpace) (n k : Nat) : Byte :=
  if 2 * k + 1 < n then trunc8 (((s.inByte sp (2 * k + 1)).toNat - 0x30) * 16 + ((s.inByte sp (2 * k)).toNat - 0x30))
  else trunc8 (0xF0 + ((s.inByte sp (2 * k)).toNat - 0x30))

/-- The encoded address of the first `n` digits, ceil(n/2) bytes (R105, R106). -/
def State.addrBytes (s : State) (sp : InSpace) (n : Nat) : List Byte :=
  (List.range (ceilDiv n 2)).map (s.addrOut sp n)

/-- Septet j of the text (R121). -/
def State.textSeptet (s : State) (j : Nat) : Nat := (s.inByte .txt j).toNat % 128

/-- Bit t of byte b of the packed text, as a little-endian bit stream (R53). -/
def State.packedBit (s : State) (b t : Nat) : Bool :=
  if 8 * b + t < 7 * s.iface.nt then (s.textSeptet ((8 * b + t) / 7)).testBit ((8 * b + t) % 7) else false

/-- Byte b of the packed text by phase (R125 to R128): after b bytes P - 1 = b mod 7, and the cursor is b + floor(b/7). -/
def State.packedByte (s : State) (b : Nat) : Byte :=
  if b + b / 7 + 1 < s.iface.nt then
    trunc8 ((s.textSeptet (b + b / 7) >>> (b % 7)) ||| (s.textSeptet (b + b / 7 + 1) <<< (7 - b % 7)))
  else trunc8 (s.textSeptet (b + b / 7) >>> (b % 7))

/-- The packed text, L bytes (R122). -/
def State.packedBytes (s : State) : List Byte := (List.range (packedLength s.iface.nt)).map s.packedByte

/-- The SMSC part of a PDU (R153). -/
def State.smscField (s : State) (smsc : Bool) : List Byte :=
  if smsc then [trunc8 (1 + ceilDiv s.iface.ns 2), s.cfg.toa] ++ s.addrBytes .digs s.iface.ns else [0x00]

/-- The submit PDU, field by field in the order of the layout table (R152). -/
def State.pduBytes (s : State) (smsc : Bool) : List Byte :=
  s.smscField smsc ++ [s.cfg.mti, 0x00] ++ [trunc8 s.iface.nd, s.cfg.toa] ++ s.addrBytes .digd s.iface.nd ++
    [s.cfg.pid, s.cfg.dcs, s.cfg.vp] ++ [trunc8 s.iface.nt] ++ s.packedBytes

/-- A of the layout: where the message type stands (R152). -/
def Iface.posA (f : Iface) (smsc : Bool) : Nat := if smsc then 2 + ceilDiv f.ns 2 else 1

/-- B of the layout: where the protocol identifier stands (R152). -/
def Iface.posB (f : Iface) (smsc : Bool) : Nat := f.posA smsc + 4 + ceilDiv f.nd 2

/-- T of the layout: the total length (R152). -/
def Iface.posT (f : Iface) (smsc : Bool) : Nat := f.posB smsc + 4 + packedLength f.nt

/-! ### Which errors the rules allow -/

/-- The kinds AddrEncode may report, given the capacity left (R101, R104); none if it succeeds. -/
def State.addrErrors (s : State) (sp : InSpace) (n capr : Nat) : List ErrKind :=
  (if capr < ceilDiv n 2 then [.capacity] else []) ++
    (if (List.range n).all fun k => isDigit (s.inByte sp k) then [] else [.format])

/-- The kinds SeptetPack may report, given the capacity left (R123, R124); none if it succeeds. -/
def State.textErrors (s : State) (capr : Nat) : List ErrKind :=
  (if 160 < s.iface.nt then [.length] else []) ++ (if capr < packedLength s.iface.nt then [.capacity] else [])

/-- Some Emit of a run of fixed bytes that ends at `pos` fails (R151). -/
def State.emitErrors (s : State) (pos : Nat) : List ErrKind := if s.iface.cap < pos then [.capacity] else []

/-- The kinds ASMPDU may report: those of the earliest stage that raises (R163); none if it succeeds. -/
def State.pduErrors (s : State) (smsc : Bool) : List ErrKind :=
  let f := s.iface
  let checks : List (List ErrKind) :=
    [ s.emitErrors (if smsc then 2 else 1),
      if smsc then s.addrErrors .digs f.ns (f.cap - 2) else [],
      s.emitErrors (f.posA smsc + 2),
      s.emitErrors (f.posA smsc + 4),
      s.addrErrors .digd f.nd (f.cap - (f.posA smsc + 4)),
      s.emitErrors (f.posB smsc + 3),
      s.emitErrors (f.posB smsc + 4),
      s.textErrors (f.cap - (f.posB smsc + 4)) ]
  (checks.find? fun e => !e.isEmpty).getD []

/-- The kinds a command may report: those of its earliest check that fails (R100, R120, R163, R189); none if it succeeds. -/
def State.errors (s : State) : Instr → List ErrKind
  | .encaddr => s.addrErrors .digd s.iface.nd s.iface.cap
  | .pack7 => s.textErrors s.iface.cap
  | .asmpdu smsc => s.pduErrors smsc

/-! ### What an assembler line gives its command -/

/-- Bytes written from one address on and bytes written from another agree wherever both lie. -/
def Agree (a : Nat) (xs : List Byte) (b : Nat) (ys : List Byte) : Prop :=
  ∀ k (hk : k < xs.length) j (hj : j < ys.length), a + k = b + j → xs[k] = ys[j]

/-- A line's actions, done from `s` with the buffers at the places `at_`; `rest` is what the outside does after them. -/
def AsmLine.run (line : AsmLine) (at_ : Placement) (rest : List Request) (s : State) : Host.Outcome State Fault Refusal :=
  Sys2Proof.core.run (line.requests at_).length (s.setRequests (line.requests at_ ++ rest))

/-- An input space lies at this place and holds exactly these bytes. -/
def State.Holds (u : State) (sp : InSpace) (base : Nat) (bytes : List Byte) : Prop :=
  u.inBase sp = base ∧ u.inSize sp = bytes.length ∧ ∀ k (h : k < bytes.length), u.inByte sp k = bytes[k]

/-- `u` is `s` with the command `i` about to run on OUT at this place with this capacity: nothing else differs but `rest` left of
the actions, the input spaces, and the bytes in them. -/
def State.Issued (s u : State) (i : Instr) (out cap : Nat) (rest : List Request) : Prop :=
  u.mode = .idle ∧ u.cfg = s.cfg ∧ u.params = s.params ∧ u.status = s.status ∧ u.len = s.len ∧ u.tr = s.tr ∧
    u.draws = s.draws ∧ u.requests = rest ∧ u.iface.cmd = encode i ∧ u.iface.cap = cap ∧ u.place.out = out ∧
    ∀ a, (∀ sp, ¬ u.InInput sp a) → u.mem.read a = s.mem.read a

/-! ### The invariant -/

/-- The open parameters lie in the ranges of the table (R7). -/
abbrev Params.wf (p : Params) : Prop := p.maxDigits ≤ Config.maxDigitsBound ∧ Config.capWidthLeast ≤ p.capW

/-- Every field of CAP_W bits holds a value of that width (R22, R23). -/
def State.FieldsFit (s : State) : Prop :=
  s.iface.ns < 2 ^ s.params.capW ∧ s.iface.nd < 2 ^ s.params.capW ∧ s.iface.nt < 2 ^ s.params.capW ∧
    s.iface.cap < 2 ^ s.params.capW ∧ s.len < 2 ^ s.params.capW

/-- Inside AddrEncode with SRC, NDIG and BASE as given: DI = 2*WO, and what is to be written fits (R31, R101). -/
def State.InAddr (s : State) (src : InSpace) (ndig base : Nat) : Prop :=
  s.tr.src = src ∧ s.tr.ndig = ndig ∧ s.tr.base = base ∧ s.tr.di = 2 * s.tr.wo ∧ s.tr.wo ≤ ceilDiv ndig 2 ∧
    base + ceilDiv ndig 2 ≤ s.iface.cap

/-- Inside SeptetPack with BASE as given: P and I as the bytes written so far say (R33, R129), and what is to be written fits. -/
def State.InSeptets (s : State) (base : Nat) : Prop :=
  s.tr.base = base ∧ s.tr.p.toNat = s.tr.o % 7 + 1 ∧ s.tr.i = s.tr.o + s.tr.o / 7 ∧ s.tr.i ≤ s.iface.nt ∧
    s.iface.nt ≤ Config.maxText ∧ base + packedLength s.iface.nt ≤ s.iface.cap

/-- Where the write position stands when a stage of ASMPDU starts (R152). -/
def Iface.stageStart (f : Iface) (smsc : Bool) : Stage → Nat
  | .smsc => 0
  | .header => f.posA smsc
  | .dest => f.posA smsc + 2
  | .consts => f.posB smsc
  | .udl => f.posB smsc + 3
  | .text => f.posB smsc + 4
  | .done => f.posT smsc

/-- The sequencing registers belong to the running operation (R21, R30 to R34). -/
def State.Sequenced (s : State) : Instr → Prop
  | .encaddr =>
    match s.tr.unit with
    | .idle => True
    | .addrEncode => s.InAddr .digd s.iface.nd 0
    | .septetPack => False
  | .pack7 =>
    match s.tr.unit with
    | .idle => True
    | .addrEncode => False
    | .septetPack => s.InSeptets 0
  | .asmpdu smsc =>
    match s.tr.unit with
    | .idle => s.tr.w = s.iface.stageStart smsc s.tr.stage ∧ s.tr.w ≤ s.iface.cap
    | .addrEncode =>
      (smsc = true ∧ s.tr.stage = .smsc ∧ s.tr.w = 2 ∧ s.InAddr .digs s.iface.ns s.tr.w) ∨
        (s.tr.stage = .dest ∧ s.tr.w = s.iface.posA smsc + 4 ∧ s.InAddr .digd s.iface.nd s.tr.w)
    | .septetPack => s.tr.stage = .text ∧ s.tr.w = s.iface.posB smsc + 4 ∧ s.InSeptets s.tr.w

/-- While an operation runs: CMD is its byte, nothing that would have refused it holds, and it is sequenced. -/
def State.RunningOk (s : State) (i : Instr) : Prop :=
  decode s.iface.cmd = .ok i ∧ s.DigitsFit i ∧ s.Apart ∧ s.Sequenced i

/-- The invariant of the machine. -/
def State.Inv (s : State) : Prop :=
  Memory.wf s.mem ∧ s.params.wf ∧ s.FieldsFit ∧
    match s.mode with
    | .idle => True
    | .running i => s.RunningOk i

end Sys2Proof.Machine
end

