-- ==== Sys2Proof/Certificates/Slice0/Obligations.lean ====
section
/-! DEFINITION. The statements for the provers. Each docstring names the rule of spec/ it formalises, or says that it is derived. -/

open Sys2Proof Sys2Proof.Machine

/-! ### Encoding -/

/-- R73: the rows of the opcode map select the commands the decoder reads, 0x03 being ASMPDU without an SMSC and 0x07 with one. -/
def Obligations.CommandBytesDecode : Prop :=
  decode 0x01 = .ok .encaddr ∧ decode 0x02 = .ok .pack7 ∧ decode 0x03 = .ok (.asmpdu false) ∧
  decode 0x07 = .ok (.asmpdu true) ∧
  (∀ b : Byte, b &&& 0xFF = 0x01 ↔ decode b = .ok .encaddr) ∧
  (∀ b : Byte, b &&& 0xFF = 0x02 ↔ decode b = .ok .pack7) ∧
  (∀ b : Byte, b &&& 0xFB = 0x03 ↔ ∃ smsc, decode b = .ok (.asmpdu smsc))

/-- Derived from R74: every CMD value the opcode map does not match is refused, however it is issued. That the reason is
`reservedCommand` while RUNNING too, where `commandWhileRunning` applies as well (R187), is the model's choice (log entry 7). -/
def Obligations.ReservedCommandsAreRefused : Prop :=
  ∀ (s : State) (b : Byte) (rest : List Request), b ≠ 0x01 → b ≠ 0x02 → b ≠ 0x03 → b ≠ 0x07 →
    (s.requests = .issue b :: rest ∨ s.requests = .issueNoWait b :: rest) → step s = .refused .reservedCommand

/-- Derived from R70 and R73: decoding an encoded command gives it back, and each byte that decodes is the encoding of what it
decodes to. -/
def Obligations.DecodeAndEncodeAgree : Prop :=
  (∀ i : Instr, i.wf = true ∧ decode (encode i) = .ok i) ∧ ∀ (b : Byte) (i : Instr), decode b = .ok i → encode i = b

/-! ### A step -/

/-- Derived (the model's step; R203 step 4, R57): when the oldest action at the interface writes a CMD byte that decodes to a
command, the step is that command's meaning at the state with the action taken and CMD written; `withFetchWord` sets up
exactly that. -/
def Obligations.StepRunsTheDecodedCommand : Prop :=
  (∀ (s : State) (b : Byte) (i : Instr) (rest : List Request), s.requests = .issue b :: rest → decode b = .ok i →
    step s = exec i ((s.setRequests rest).setCmd b)) ∧
  ∀ (s : State) (nbits w : Nat) (i : Instr), decodeTableWord nbits w = some i →
    step (s.withFetchWord nbits w) = exec i (s.setCmd (BitVec.ofNat 8 w))

/-- Derived from R200 (the model's step): in IDLE with nothing asked of it the block waits. -/
def Obligations.IdleBlockWaits : Prop :=
  ∀ s : State, s.mode = .idle →
    (s.requests = [] → step s = .next s) ∧
    ∀ rest, s.requests = .tick :: rest → step s = .next (s.setRequests rest)

/-- Derived from R200, R201: a block reset, from any state. While an operation was running, OUT[0 .. CAP-1] may hold anything; no other
byte of memory changes. Then the block waits in IDLE. The unspecified registers stand in no clause. That the places, the
parameters and the remaining actions stay as they are is the model's choice (log entry 15; the actions: log entry 6). -/
def Obligations.BlockResetLeaves : Prop :=
  ∀ (s : State) (rest : List Request), s.requests = .reset :: rest →
    ∃ t, step s = .next t ∧ t.mode = .idle ∧
      t.cfg = { mti := 0x11, toa := 0x91, pid := 0x00, dcs := 0x00, vp := 0xB0 } ∧
      (s.mode = .idle → t.mem = s.mem) ∧
      (∀ a, ¬ s.InOut a → t.mem.read a = s.mem.read a) ∧
      t.place = s.place ∧ t.params = s.params ∧ t.requests = rest ∧ (rest = [] → step t = .next t)

/-- Derived from R39: the state after reset. MODE and the configuration registers are the specified rows of R39; that no byte of memory
is listed and that the outside asks nothing are the model's choices (log entries 4 and 6). -/
def Obligations.ResetStateValues : Prop :=
  State.reset.mode = .idle ∧ State.reset.cfg.get .mti = 0x11 ∧ State.reset.cfg.get .toa = 0x91 ∧
  State.reset.cfg.get .pid = 0x00 ∧ State.reset.cfg.get .dcs = 0x00 ∧ State.reset.cfg.get .vp = 0xB0 ∧
  State.reset.mem = [] ∧ State.reset.requests = []

/-! ### The invariant, and no fault -/

/-- The invariant holds at reset. -/
def Obligations.InvHoldsAtReset : Prop := State.reset.Inv

/-- Every step from a state that meets the invariant gives one that meets it. -/
def Obligations.InvKeptByEveryStep : Prop := ∀ s t : State, s.Inv → step s = .next t → t.Inv

/-- Derived from R38, R55 and 93_implementation_defined.md ("No behaviour of this block is a fault"): from a state that meets the
invariant no step reads past the end of an input space, writes at or past CAP, or loses its sequence. -/
def Obligations.InvStepNeverFaults : Prop := ∀ (s : State) (f : Fault), s.Inv → step s ≠ .fault f

/-- Derived from R55: no command, from any state at all, reads past the end of an input space or writes at or past CAP. -/
def Obligations.ExecNeverFaults : Prop := ∀ (i : Instr) (s : State) (f : Fault), exec i s ≠ .fault f

/-! ### Refusals and acceptance -/

/-- Derived from R205: a command issued while MODE is RUNNING is refused. That the reason is `commandWhileRunning` also where a digit string
is too long or OUT overlaps an input is the model's order of reasons (log entry 7). -/
def Obligations.CommandWhileRunningIsRefused : Prop :=
  ∀ (s : State) (op i : Instr), s.mode = .running op →
    exec i s = .refused .commandWhileRunning ∧
    ∀ rest, (s.requests = .issue (encode i) :: rest ∨ s.requests = .issueNoWait (encode i) :: rest) →
      step s = .refused .commandWhileRunning

/-- Derived from R109: a digit string longer than MAX_DIGITS is refused, in ENCADDR and for NS and ND in ASMPDU. That the reason is
`digitStringTooLong` also where OUT overlaps an input is the model's order of reasons (log entry 7). -/
def Obligations.LongDigitStringIsRefused : Prop :=
  ∀ s : State, s.mode = .idle →
    (s.params.maxDigits < s.iface.nd → exec .encaddr s = .refused .digitStringTooLong) ∧
    (∀ smsc, s.params.maxDigits < s.iface.nd → exec (.asmpdu smsc) s = .refused .digitStringTooLong) ∧
    (s.params.maxDigits < s.iface.ns → exec (.asmpdu true) s = .refused .digitStringTooLong)

/-- R207: a command is refused when OUT shares a byte with DIGS, DIGD or TXT; where it does not, the command runs, whether or not the
input spaces overlap each other. That the reason is then `bufferOverlap` only where no
digit string is too long is the model's order of reasons (log entry 7). -/
def Obligations.OverlapWithOutIsRefused : Prop :=
  (∀ (s : State) (i : Instr) (sp : InSpace) (a : Nat), s.mode = .idle → s.InOut a → s.InInput sp a →
    ∃ r, exec i s = .refused r ∧ (s.DigitsFit i → r = .bufferOverlap)) ∧
  ∀ (s : State) (i : Instr), s.mode = .idle → s.DigitsFit i → (∀ sp a, ¬ (s.InOut a ∧ s.InInput sp a)) →
    ∃ t, exec i s = .next t

/-- Derived from R26 and R210: every command that nothing refuses ends, in IDLE; the commands that something refuses have no
other outcome (R189). -/
def Obligations.AcceptedCommandEnds : Prop :=
  ∀ (i : Instr) (s : State),
    (s.accepts i → ∃ t, exec i s = .next t ∧ t.mode = .idle) ∧ (¬ s.accepts i → ∃ r, exec i s = .refused r)

/-! ### ENCADDR -/

/-- R105, R106: what ENCADDR writes. -/
def Obligations.EncAddrWritesSemiOctets : Prop :=
  ∀ s : State, s.accepts .encaddr → s.DigitString .digd s.iface.nd → ceilDiv s.iface.nd 2 ≤ s.iface.cap →
    ∃ t, exec .encaddr s = .next t ∧ t.status = .ok ∧ t.len = ceilDiv s.iface.nd 2 ∧
      (∀ k, 2 * k + 1 < s.iface.nd → t.outByte k =
        trunc8 ((((s.inByte .digd (2 * k + 1)).toNat - 0x30) <<< 4) ||| ((s.inByte .digd (2 * k)).toNat - 0x30))) ∧
      (s.iface.nd % 2 = 1 → t.outByte ((s.iface.nd - 1) / 2) =
        trunc8 (0xF0 ||| ((s.inByte .digd (s.iface.nd - 1)).toNat - 0x30)))

/-- Derived from R100, R101 and R104: ENCADDR succeeds exactly when its digits fit and are digits, and an error it reports is one
that applies. -/
def Obligations.EncAddrErrors : Prop :=
  ∀ s : State, s.accepts .encaddr →
    ∃ t, exec .encaddr s = .next t ∧
      (t.status = .ok ↔ ceilDiv s.iface.nd 2 ≤ s.iface.cap ∧ s.DigitString .digd s.iface.nd) ∧
      (t.status = .capacityError → s.iface.cap < ceilDiv s.iface.nd 2) ∧
      (t.status = .formatError → ¬ s.DigitString .digd s.iface.nd) ∧
      t.status ≠ .lengthError

/-- Derived from R107: in what ENCADDR writes, a low nibble is a digit value, and a high nibble is one too, or 0xF in the last byte
of an odd-length string. -/
def Obligations.EncAddrNibbleRange : Prop :=
  ∀ (s : State), s.accepts .encaddr → s.DigitString .digd s.iface.nd → ceilDiv s.iface.nd 2 ≤ s.iface.cap →
    ∃ t, exec .encaddr s = .next t ∧ ∀ k, k < t.len → (t.outByte k).toNat % 16 ≤ 9 ∧
      ((t.outByte k).toNat / 16 ≤ 9 ∨ ((t.outByte k).toNat / 16 = 0xF ∧ k + 1 = t.len ∧ s.iface.nd % 2 = 1))

/-! ### PACK7 -/

/-- Derived from R53 and R130: the bytes PACK7 writes are the little-endian bit stream of the septets, its last byte filled with
zero bits. -/
def Obligations.Pack7IsTheBitStream : Prop :=
  ∀ s : State, s.accepts .pack7 → s.iface.nt ≤ 160 → packedLength s.iface.nt ≤ s.iface.cap →
    ∃ t, exec .pack7 s = .next t ∧ t.status = .ok ∧ t.len = packedLength s.iface.nt ∧
      ∀ b k, b < packedLength s.iface.nt → k < 8 → (t.outByte b).getLsbD k = s.packedBit b k

/-- R122: PACK7 writes exactly ceil(7*N/8) bytes; the bytes, derived from R125 to R128, by phase and cursor. -/
def Obligations.Pack7WritesByPhase : Prop :=
  ∀ s : State, s.accepts .pack7 → s.iface.nt ≤ 160 → packedLength s.iface.nt ≤ s.iface.cap →
    ∃ t, exec .pack7 s = .next t ∧ t.status = .ok ∧ t.len = ceilDiv (7 * s.iface.nt) 8 ∧
      ∀ b, b < t.len → t.outByte b = s.packedByte b

/-- R123, R124: when PACK7 succeeds, and which errors it may report; when both apply it reports one of them. -/
def Obligations.Pack7Errors : Prop :=
  ∀ s : State, s.accepts .pack7 →
    ∃ t, exec .pack7 s = .next t ∧
      (t.status = .ok ↔ s.iface.nt ≤ 160 ∧ ceilDiv (7 * s.iface.nt) 8 ≤ s.iface.cap) ∧
      (t.status = .lengthError → 160 < s.iface.nt) ∧
      (t.status = .capacityError → s.iface.cap < ceilDiv (7 * s.iface.nt) 8) ∧
      t.status ≠ .formatError

/-- R121: bit 7 of a text byte is discarded: it is never an error and never reaches the output. LEN is compared on success only (R25), and
the kind of an error only where not both conditions hold (R124). -/
def Obligations.Pack7IgnoresBitSeven : Prop :=
  ∀ (s : State) (m : Memory), s.accepts .pack7 →
    (∀ j, j < s.iface.nt → (s.inByte .txt j).toNat % 128 = ((s.setMem m).inByte .txt j).toNat % 128) →
    ∃ t t', exec .pack7 s = .next t ∧ exec .pack7 (s.setMem m) = .next t' ∧
      (t.status = .ok ↔ t'.status = .ok) ∧
      (t.status = .ok → t.len = t'.len ∧ ∀ k, k < t.len → t.outByte k = t'.outByte k) ∧
      (¬ (160 < s.iface.nt ∧ s.iface.cap < ceilDiv (7 * s.iface.nt) 8) → t.status = t'.status)

/-! ### ASMPDU -/

/-- R153, R156, R160, R161: what a successful ASMPDU writes, field by field (the table of R152). -/
def Obligations.AsmPduWritesTheLayout : Prop :=
  ∀ (smsc : Bool) (s : State), s.accepts (.asmpdu smsc) → (smsc = true → s.DigitString .digs s.iface.ns) →
    s.DigitString .digd s.iface.nd → s.iface.nt ≤ 160 → s.iface.posT smsc ≤ s.iface.cap →
    ∃ t, exec (.asmpdu smsc) s = .next t ∧ t.status = .ok ∧ t.len = s.iface.posT smsc ∧
      (List.range t.len).map t.outByte = s.pduBytes smsc

/-- R154: the SMSC length byte counts bytes and the destination length byte counts digits, neither truncated where MAX_DIGITS is in
its range (R7); and the user-data length counts septets (R159). -/
def Obligations.AsmPduLengthBytes : Prop :=
  ∀ (smsc : Bool) (s : State), s.accepts (.asmpdu smsc) → (smsc = true → s.DigitString .digs s.iface.ns) →
    s.DigitString .digd s.iface.nd → s.iface.nt ≤ 160 → s.iface.posT smsc ≤ s.iface.cap → s.params.wf →
    ∃ t, exec (.asmpdu smsc) s = .next t ∧ t.status = .ok ∧
      (t.outByte 0).toNat = (if smsc then 1 + ceilDiv s.iface.ns 2 else 0) ∧
      (t.outByte (s.iface.posA smsc + 2)).toNat = s.iface.nd ∧
      (t.outByte (s.iface.posB smsc + 3)).toNat = s.iface.nt

/-- R163: the stages run in order and the earliest that raises decides; within one unit call either of two kinds may be reported. -/
def Obligations.AsmPduReportsTheEarliestStage : Prop :=
  ∀ (smsc : Bool) (s : State), s.accepts (.asmpdu smsc) →
    ∃ t, exec (.asmpdu smsc) s = .next t ∧
      (s.pduErrors smsc = [] → t.status = .ok) ∧
      (s.pduErrors smsc ≠ [] → ∃ e ∈ s.pduErrors smsc, t.status = e.status)

/-- Derived from R164: with valid inputs ASMPDU succeeds exactly when CAP >= T, and else reports CapacityError. -/
def Obligations.AsmPduExactCapacity : Prop :=
  ∀ (smsc : Bool) (s : State), s.accepts (.asmpdu smsc) → (smsc = true → s.DigitString .digs s.iface.ns) →
    s.DigitString .digd s.iface.nd → s.iface.nt ≤ 160 →
    ∃ t, exec (.asmpdu smsc) s = .next t ∧
      (s.iface.posT smsc ≤ s.iface.cap → t.status = .ok ∧ t.len = s.iface.posT smsc) ∧
      (s.iface.cap < s.iface.posT smsc → t.status = .capacityError)

/-- Derived from R165: ASMPDU reports FormatError only for a digit string it reads, and LengthError only for the text. -/
def Obligations.AsmPduBlamesTheRightOperand : Prop :=
  ∀ (smsc : Bool) (s t : State), exec (.asmpdu smsc) s = .next t →
    (t.status = .formatError →
      (smsc = true ∧ ¬ s.DigitString .digs s.iface.ns) ∨ ¬ s.DigitString .digd s.iface.nd) ∧
    (t.status = .lengthError → 160 < s.iface.nt)

/-! ### What an operation leaves -/

/-- R184: the state after a raise, for every command: the frame of an error. LEN and OUT[0 .. CAP-1] are any value and stand in no
clause. -/
def Obligations.ErrorLeaves : Prop :=
  ∀ (i : Instr) (s t : State), exec i s = .next t → t.status ≠ .ok →
    t.mode = .idle ∧ t.cfg = s.cfg ∧ t.result = some (t.status, none) ∧
    (∀ a, ¬ s.InOut a → t.mem.read a = s.mem.read a) ∧
    (∀ sp k, k < s.inSize sp → t.inByte sp k = s.inByte sp k) ∧
    t.iface = s.iface ∧ t.place = s.place ∧ t.params = s.params ∧ t.requests = s.requests

/-- R185: the state after success, for every command: the frame of a success. OUT[LEN .. CAP-1] is any value and stands in no clause;
what OUT[0 .. LEN-1] holds is stated per command. -/
def Obligations.SuccessLeaves : Prop :=
  ∀ (i : Instr) (s t : State), exec i s = .next t → t.status = .ok →
    t.mode = .idle ∧ t.cfg = s.cfg ∧ t.result = some (.ok, some t.len) ∧ t.len ≤ s.iface.cap ∧
    (∀ a, ¬ s.InOut a → t.mem.read a = s.mem.read a) ∧
    (∀ sp k, k < s.inSize sp → t.inByte sp k = s.inByte sp k) ∧
    t.iface = s.iface ∧ t.place = s.place ∧ t.params = s.params ∧ t.requests = s.requests

/-- Derived from R55: a small step of a running operation, from any state at all, changes no byte of memory outside OUT[0 .. CAP-1],
and no configuration register, operand field or parameter. -/
def Obligations.SmallStepFrame : Prop :=
  ∀ (s t : State) (rest : List Request), (s.requests = [] ∧ rest = [] ∨ s.requests = .tick :: rest) → step s = .next t →
    (∀ a, ¬ s.InOut a → t.mem.read a = s.mem.read a) ∧ t.cfg = s.cfg ∧ t.iface = s.iface ∧ t.place = s.place ∧
      t.params = s.params ∧ t.requests = rest ∧
      (t.mode = s.mode → t.status = s.status ∧ t.len = s.len ∧ t.draws = s.draws)

/-- R24: the codes of STATUS; every 2-bit value is assigned. -/
def Obligations.StatusCodes : Prop :=
  Status.ok.code = 0b00 ∧ Status.capacityError.code = 0b01 ∧ Status.formatError.code = 0b10 ∧
  Status.lengthError.code = 0b11 ∧ (∀ st : Status, Status.ofCode st.code = st) ∧ ∀ c, (Status.ofCode c).code = c

/-- Derived from R8: how long a successful result can be. -/
def Obligations.ResultLengthBounds : Prop :=
  ∀ s t : State, t.status = .ok →
    (exec .encaddr s = .next t → t.len ≤ ceilDiv s.params.maxDigits 2) ∧
    (exec .pack7 s = .next t → t.len ≤ 140) ∧
    ∀ smsc, exec (.asmpdu smsc) s = .next t →
      t.len ≤ 1 + 1 + ceilDiv s.params.maxDigits 2 + 2 + 2 + ceilDiv s.params.maxDigits 2 + 3 + 1 + 140

/-- Derived from R20: a result is a function of the command, its operands and the configuration registers and nothing else: two states that
agree on what the command reads (R72) give the same success, LEN and bytes, whatever else they hold. Where one condition
holds at the earliest check that fails, both give its kind, whatever the draws (R189). Where two hold, the kind is a free value of
the model (log entries 8 and 9), so it is the same where the number of draws is. -/
def Obligations.ResultDependsOnOperandsOnly : Prop :=
  ∀ (i : Instr) (s s' t : State), s.accepts i → s'.accepts i → s.iface.cap = s'.iface.cap →
    ((∃ smsc, i = .asmpdu smsc) → s.cfg = s'.cfg) →
    (∀ sp ∈ reads i, s.inSize sp = s'.inSize sp ∧ ∀ k, k < s.inSize sp → s.inByte sp k = s'.inByte sp k) →
    exec i s = .next t →
    ∃ t', exec i s' = .next t' ∧ (t.status = .ok ↔ t'.status = .ok) ∧
      (t.status = .ok → t.len = t'.len ∧ ∀ k, k < t.len → t.outByte k = t'.outByte k) ∧
      (∀ e, s.errors i = [e] → t.status = e.status ∧ t'.status = e.status) ∧
      (s.draws = s'.draws → t.status = t'.status)

/-! ### The interface -/

/-- R28: every value is legal in every configuration register, a value read back is the value last written, and ASMPDU copies each
register to its place in the PDU unchanged. -/
def Obligations.ConfigWriteReadsBack : Prop :=
  (∀ (s : State) (r : CfgReg) (v : Byte) (rest : List Request), s.mode = .idle → s.requests = .cfgWrite r v :: rest →
    ∃ t, step s = .next t ∧ t.cfgRead r = some v ∧ (∀ q, q ≠ r → t.cfgRead q = s.cfgRead q) ∧
      t = (s.setRequests rest).setCfg t.cfg) ∧
  ∀ (smsc : Bool) (s : State), s.accepts (.asmpdu smsc) → (smsc = true → s.DigitString .digs s.iface.ns) →
    s.DigitString .digd s.iface.nd → s.iface.nt ≤ 160 → s.iface.posT smsc ≤ s.iface.cap →
    ∃ t, exec (.asmpdu smsc) s = .next t ∧ (smsc = true → t.outByte 1 = s.cfg.toa) ∧
      t.outByte (s.iface.posA smsc) = s.cfg.mti ∧ t.outByte (s.iface.posA smsc + 3) = s.cfg.toa ∧
      t.outByte (s.iface.posB smsc) = s.cfg.pid ∧ t.outByte (s.iface.posB smsc + 1) = s.cfg.dcs ∧
      t.outByte (s.iface.posB smsc + 2) = s.cfg.vp

/-- R29: a write to a configuration register while MODE is RUNNING is refused. -/
def Obligations.ConfigWriteWhileRunningIsRefused : Prop :=
  ∀ (s : State) (op : Instr) (r : CfgReg) (v : Byte) (rest : List Request), s.mode = .running op →
    s.requests = .cfgWrite r v :: rest → step s = .refused .configWriteWhileRunning

/-- R206: while MODE is RUNNING no agent may read or write OUT, and none may write an input space. Reads of an input space:
`AccessWhileRunning`. -/
def Obligations.ForeignAccessIsRefused : Prop :=
  ∀ (s : State) (op : Instr) (a : Nat) (rest : List Request), s.mode = .running op →
    (s.InOut a → s.requests = .memRead a :: rest → step s = .refused .foreignAccess) ∧
    (∀ v, s.InOut a → s.requests = .memWrite a v :: rest → step s = .refused .foreignAccess) ∧
    ∀ v sp, s.InInput sp a → s.requests = .memWrite a v :: rest → step s = .refused .foreignAccess

/-- Derived from R203 (2) and R60 (the model's memory): a byte the caller writes while IDLE is the byte an operation then reads, and no
other byte changes. -/
def Obligations.CallerWriteIsSeen : Prop :=
  ∀ (s : State) (a : Nat) (v : Byte) (rest : List Request), s.mode = .idle → s.requests = .memWrite a v :: rest →
    ∃ t, step s = .next t ∧ t.mem.read a = v ∧ (∀ b, b ≠ a → t.mem.read b = s.mem.read b) ∧
      t = (s.setRequests rest).setMem t.mem

/-- Derived from R22 and R203 (3): writing a length or capacity that fits CAP_W bits sets it, and sets nothing else; that a write while
RUNNING is refused as a command is the model's choice (log entry 10). -/
def Obligations.OperandWriteSetsItsField : Prop :=
  ∀ (s : State) (sp : InSpace) (base n : Nat) (rest : List Request), s.mode = .idle → n < 2 ^ s.params.capW →
    (s.requests = .setInput sp base n :: rest →
      ∃ t, step s = .next t ∧ t.inSize sp = n ∧ t.inBase sp = base ∧
        (∀ q, q ≠ sp → t.inSize q = s.inSize q ∧ t.inBase q = s.inBase q) ∧
        t.iface.cmd = s.iface.cmd ∧ t.iface.cap = s.iface.cap ∧ t.place.out = s.place.out ∧
        t = { s with requests := rest, iface := t.iface, place := t.place }) ∧
    (s.requests = .setOut base n :: rest →
      ∃ t, step s = .next t ∧ t.iface.cap = n ∧ t.place.out = base ∧ t.iface = { s.iface with cap := n } ∧
        t.place = { s.place with out := base } ∧ t = { s with requests := rest, iface := t.iface, place := t.place })

/-- Derived from R75 and R203: running an assembler line's actions comes to the command's meaning in a state whose operands are the
line's, for every command line; and a `CFG_<name> := <byte>` line writes its register. Where input spaces overlap each other,
the line's bytes agree on what they share. The actions a line stands for are the model's (log entry 18), and so is the queue that runs
them (log entry 6). -/
def Obligations.AssemblerLineRunsItsCommand : Prop :=
  ∀ (s : State) (at_ : Placement) (cap : Nat) (sm d t : List Byte) (rest : List Request), s.mode = .idle →
    cap < 2 ^ s.params.capW → sm.length < 2 ^ s.params.capW → d.length < 2 ^ s.params.capW → t.length < 2 ^ s.params.capW →
    (∃ u, s.Issued u .encaddr at_.out cap rest ∧ u.Holds .digd at_.digd d ∧
      (AsmLine.encaddr cap d).run at_ rest s = exec .encaddr u) ∧
    (∃ u, s.Issued u .pack7 at_.out cap rest ∧ u.Holds .txt at_.txt t ∧
      (AsmLine.pack7 cap t).run at_ rest s = exec .pack7 u) ∧
    (Agree at_.digd d at_.txt t →
      ∃ u, s.Issued u (.asmpdu false) at_.out cap rest ∧ u.Holds .digd at_.digd d ∧ u.Holds .txt at_.txt t ∧
        (AsmLine.asmpdu cap none d t).run at_ rest s = exec (.asmpdu false) u) ∧
    (Agree at_.digs sm at_.digd d → Agree at_.digs sm at_.txt t → Agree at_.digd d at_.txt t →
      ∃ u, s.Issued u (.asmpdu true) at_.out cap rest ∧ u.Holds .digs at_.digs sm ∧ u.Holds .digd at_.digd d ∧
        u.Holds .txt at_.txt t ∧ (AsmLine.asmpdu cap (some sm) d t).run at_ rest s = exec (.asmpdu true) u) ∧
    ∀ r v, (AsmLine.cfg r v).run at_ rest s = .next ((s.setRequests rest).setCfg (s.cfg.set r v))

/-- Derived from R166 (a): the consumer's length parameter for a successful PDU is T - 1 without an SMSC, T - 2 - nsB with one. -/
def Obligations.ConsumerLengthParameter : Prop :=
  ∀ (smsc : Bool) (s : State), s.accepts (.asmpdu smsc) → (smsc = true → s.DigitString .digs s.iface.ns) →
    s.DigitString .digd s.iface.nd → s.iface.nt ≤ 160 → s.iface.posT smsc ≤ s.iface.cap → s.params.wf →
    ∃ t, exec (.asmpdu smsc) s = .next t ∧ t.status = .ok ∧
      consumerLength t.len (t.outByte 0) =
        if smsc then s.iface.posT smsc - 2 - ceilDiv s.iface.ns 2 else s.iface.posT smsc - 1

/-! ### The running operation -/

/-- R202: every command sets its transient registers at its start, and MODE becomes RUNNING(op) (R26); acceptance writes nothing
else. -/
def Obligations.AcceptanceStartsFresh : Prop :=
  ∀ (s : State) (b : Byte) (i : Instr) (rest : List Request), decode b = .ok i → s.accepts i →
    s.requests = .issueNoWait b :: rest →
    ∃ t, step s = .next t ∧ t.mode = .running i ∧ t.tr.p = 1 ∧ t.tr.i = 0 ∧ t.tr.o = 0 ∧ t.tr.di = 0 ∧ t.tr.wo = 0 ∧
      t.tr.stage.number = 1 ∧ t.tr.w = 0 ∧
      t = { s with mode := .running i, tr := t.tr, requests := rest, iface := { s.iface with cmd := b } }

/-- Derived from R131 and R26: the operation run one small step at a time ends in exactly what the command gives as one
transaction. R131 gives the packer's step; the other small steps, and so the count 13 + NS + ND + NT, are the model's (log entry 13).
The free values come out equal because both ways make one draw (log entry 8). -/
def Obligations.SmallStepsReachTheTransaction : Prop :=
  ∀ (s : State) (b : Byte) (i : Instr) (n : Nat), decode b = .ok i → s.accepts i → s.requests = [.issueNoWait b] →
    13 + s.iface.ns + s.iface.nd + s.iface.nt ≤ n →
    Sys2Proof.core.run n s = exec i ((s.setRequests []).setCmd b)

/-- Derived from R34: while ASMPDU runs, STAGE never goes back, and its number is 1 to 7. -/
def Obligations.StageNeverGoesBack : Prop :=
  ∀ (s t : State) (smsc : Bool) (rest : List Request), s.Inv → s.mode = .running (.asmpdu smsc) →
    (s.requests = [] ∨ s.requests = .tick :: rest) → step s = .next t → t.mode = .running (.asmpdu smsc) →
    s.tr.stage.number ≤ t.tr.stage.number ∧ 1 ≤ t.tr.stage.number ∧ t.tr.stage.number ≤ 7

/-- Derived from R33: at every step boundary inside SeptetPack, P is 1 to 7 and is (O mod 7) + 1, and a step of the main pass raises O
by one and I by one, or by two when P was 7 (R127). -/
def Obligations.PhaseFollowsBytesWritten : Prop :=
  ∀ (s t : State) (op : Instr), s.Inv → s.mode = .running op → s.tr.unit = .septetPack → s.requests = [] →
    s.tr.i + 1 < s.iface.nt → step s = .next t →
    t.mode = .running op ∧ t.tr.p.toNat = t.tr.o % 7 + 1 ∧ t.tr.o = s.tr.o + 1 ∧
      t.tr.i = (if s.tr.p.toNat = 7 then s.tr.i + 2 else s.tr.i + 1)

/-! ### Access by another agent, whole -/

/-- Derived from R187 and R206: while MODE is RUNNING another agent's access to OUT or an input space, a read or a write, is refused, and
an access to any other address goes through. That a read of an input space is refused is read from R187's "accessed" (log entry 11). -/
def Obligations.AccessWhileRunning : Prop :=
  ∀ (s : State) (op : Instr) (a : Nat) (rest : List Request), s.mode = .running op →
    ((s.InOut a ∨ ∃ sp, s.InInput sp a) →
      (s.requests = .memRead a :: rest → step s = .refused .foreignAccess) ∧
      ∀ v, s.requests = .memWrite a v :: rest → step s = .refused .foreignAccess) ∧
    (¬ s.InOut a → (∀ sp, ¬ s.InInput sp a) →
      (s.requests = .memRead a :: rest → step s = .next (s.setRequests rest)) ∧
      ∀ v, s.requests = .memWrite a v :: rest →
        ∃ t, step s = .next t ∧ t.mem.read a = v ∧ (∀ b, b ≠ a → t.mem.read b = s.mem.read b) ∧
          t = (s.setRequests rest).setMem t.mem)
end

