-- ==== Sys2Proof/Laws/State.lean ====
section
/-! SUPPORT. One lemma per field per update of State, each true by rfl, so that no proof unfolds a record update. -/

namespace Sys2Proof.Laws

open Sys2Proof.Machine

section setMode
variable (s : State) (m : Mode)
@[simp] theorem setMode_mode : (s.setMode m).mode = m := rfl
@[simp] theorem setMode_cfg : (s.setMode m).cfg = s.cfg := rfl
@[simp] theorem setMode_iface : (s.setMode m).iface = s.iface := rfl
@[simp] theorem setMode_place : (s.setMode m).place = s.place := rfl
@[simp] theorem setMode_status : (s.setMode m).status = s.status := rfl
@[simp] theorem setMode_len : (s.setMode m).len = s.len := rfl
@[simp] theorem setMode_tr : (s.setMode m).tr = s.tr := rfl
@[simp] theorem setMode_mem : (s.setMode m).mem = s.mem := rfl
@[simp] theorem setMode_params : (s.setMode m).params = s.params := rfl
@[simp] theorem setMode_requests : (s.setMode m).requests = s.requests := rfl
@[simp] theorem setMode_draws : (s.setMode m).draws = s.draws := rfl
@[simp] theorem setMode_inSize (sp : InSpace) : (s.setMode m).inSize sp = s.inSize sp := by cases sp <;> rfl
@[simp] theorem setMode_inBase (sp : InSpace) : (s.setMode m).inBase sp = s.inBase sp := by cases sp <;> rfl
@[simp] theorem setMode_field (x : Nat) : (s.setMode m).field x = s.field x := rfl
@[simp] theorem setMode_inByte (sp : InSpace) (k : Nat) : (s.setMode m).inByte sp k = s.inByte sp k := by cases sp <;> rfl
@[simp] theorem setMode_outByte (k : Nat) : (s.setMode m).outByte k = s.outByte k := rfl
end setMode

section setCfg
variable (s : State) (c : CfgRegs)
@[simp] theorem setCfg_mode : (s.setCfg c).mode = s.mode := rfl
@[simp] theorem setCfg_cfg : (s.setCfg c).cfg = c := rfl
@[simp] theorem setCfg_iface : (s.setCfg c).iface = s.iface := rfl
@[simp] theorem setCfg_place : (s.setCfg c).place = s.place := rfl
@[simp] theorem setCfg_status : (s.setCfg c).status = s.status := rfl
@[simp] theorem setCfg_len : (s.setCfg c).len = s.len := rfl
@[simp] theorem setCfg_tr : (s.setCfg c).tr = s.tr := rfl
@[simp] theorem setCfg_mem : (s.setCfg c).mem = s.mem := rfl
@[simp] theorem setCfg_params : (s.setCfg c).params = s.params := rfl
@[simp] theorem setCfg_requests : (s.setCfg c).requests = s.requests := rfl
@[simp] theorem setCfg_draws : (s.setCfg c).draws = s.draws := rfl
@[simp] theorem setCfg_inSize (sp : InSpace) : (s.setCfg c).inSize sp = s.inSize sp := by cases sp <;> rfl
@[simp] theorem setCfg_inBase (sp : InSpace) : (s.setCfg c).inBase sp = s.inBase sp := by cases sp <;> rfl
@[simp] theorem setCfg_field (x : Nat) : (s.setCfg c).field x = s.field x := rfl
@[simp] theorem setCfg_inByte (sp : InSpace) (k : Nat) : (s.setCfg c).inByte sp k = s.inByte sp k := by cases sp <;> rfl
@[simp] theorem setCfg_outByte (k : Nat) : (s.setCfg c).outByte k = s.outByte k := rfl
end setCfg

section setMem
variable (s : State) (m : Memory)
@[simp] theorem setMem_mode : (s.setMem m).mode = s.mode := rfl
@[simp] theorem setMem_cfg : (s.setMem m).cfg = s.cfg := rfl
@[simp] theorem setMem_iface : (s.setMem m).iface = s.iface := rfl
@[simp] theorem setMem_place : (s.setMem m).place = s.place := rfl
@[simp] theorem setMem_status : (s.setMem m).status = s.status := rfl
@[simp] theorem setMem_len : (s.setMem m).len = s.len := rfl
@[simp] theorem setMem_tr : (s.setMem m).tr = s.tr := rfl
@[simp] theorem setMem_mem : (s.setMem m).mem = m := rfl
@[simp] theorem setMem_params : (s.setMem m).params = s.params := rfl
@[simp] theorem setMem_requests : (s.setMem m).requests = s.requests := rfl
@[simp] theorem setMem_draws : (s.setMem m).draws = s.draws := rfl
@[simp] theorem setMem_inSize (sp : InSpace) : (s.setMem m).inSize sp = s.inSize sp := by cases sp <;> rfl
@[simp] theorem setMem_inBase (sp : InSpace) : (s.setMem m).inBase sp = s.inBase sp := by cases sp <;> rfl
@[simp] theorem setMem_field (x : Nat) : (s.setMem m).field x = s.field x := rfl
end setMem

section setTr
variable (s : State) (t : Transient)
@[simp] theorem setTr_mode : (s.setTr t).mode = s.mode := rfl
@[simp] theorem setTr_cfg : (s.setTr t).cfg = s.cfg := rfl
@[simp] theorem setTr_iface : (s.setTr t).iface = s.iface := rfl
@[simp] theorem setTr_place : (s.setTr t).place = s.place := rfl
@[simp] theorem setTr_status : (s.setTr t).status = s.status := rfl
@[simp] theorem setTr_len : (s.setTr t).len = s.len := rfl
@[simp] theorem setTr_tr : (s.setTr t).tr = t := rfl
@[simp] theorem setTr_mem : (s.setTr t).mem = s.mem := rfl
@[simp] theorem setTr_params : (s.setTr t).params = s.params := rfl
@[simp] theorem setTr_requests : (s.setTr t).requests = s.requests := rfl
@[simp] theorem setTr_draws : (s.setTr t).draws = s.draws := rfl
@[simp] theorem setTr_inSize (sp : InSpace) : (s.setTr t).inSize sp = s.inSize sp := by cases sp <;> rfl
@[simp] theorem setTr_inBase (sp : InSpace) : (s.setTr t).inBase sp = s.inBase sp := by cases sp <;> rfl
@[simp] theorem setTr_field (x : Nat) : (s.setTr t).field x = s.field x := rfl
@[simp] theorem setTr_inByte (sp : InSpace) (k : Nat) : (s.setTr t).inByte sp k = s.inByte sp k := by cases sp <;> rfl
@[simp] theorem setTr_outByte (k : Nat) : (s.setTr t).outByte k = s.outByte k := rfl
end setTr

section setCmd
variable (s : State) (b : Byte)
@[simp] theorem setCmd_mode : (s.setCmd b).mode = s.mode := rfl
@[simp] theorem setCmd_cfg : (s.setCmd b).cfg = s.cfg := rfl
@[simp] theorem setCmd_iface : (s.setCmd b).iface = { s.iface with cmd := b } := rfl
@[simp] theorem setCmd_place : (s.setCmd b).place = s.place := rfl
@[simp] theorem setCmd_status : (s.setCmd b).status = s.status := rfl
@[simp] theorem setCmd_len : (s.setCmd b).len = s.len := rfl
@[simp] theorem setCmd_tr : (s.setCmd b).tr = s.tr := rfl
@[simp] theorem setCmd_mem : (s.setCmd b).mem = s.mem := rfl
@[simp] theorem setCmd_params : (s.setCmd b).params = s.params := rfl
@[simp] theorem setCmd_requests : (s.setCmd b).requests = s.requests := rfl
@[simp] theorem setCmd_draws : (s.setCmd b).draws = s.draws := rfl
@[simp] theorem setCmd_inSize (sp : InSpace) : (s.setCmd b).inSize sp = s.inSize sp := by cases sp <;> rfl
@[simp] theorem setCmd_inBase (sp : InSpace) : (s.setCmd b).inBase sp = s.inBase sp := by cases sp <;> rfl
@[simp] theorem setCmd_field (x : Nat) : (s.setCmd b).field x = s.field x := rfl
@[simp] theorem setCmd_inByte (sp : InSpace) (k : Nat) : (s.setCmd b).inByte sp k = s.inByte sp k := by cases sp <;> rfl
@[simp] theorem setCmd_outByte (k : Nat) : (s.setCmd b).outByte k = s.outByte k := rfl
end setCmd

section setRequests
variable (s : State) (rs : List Request)
@[simp] theorem setRequests_mode : (s.setRequests rs).mode = s.mode := rfl
@[simp] theorem setRequests_cfg : (s.setRequests rs).cfg = s.cfg := rfl
@[simp] theorem setRequests_iface : (s.setRequests rs).iface = s.iface := rfl
@[simp] theorem setRequests_place : (s.setRequests rs).place = s.place := rfl
@[simp] theorem setRequests_status : (s.setRequests rs).status = s.status := rfl
@[simp] theorem setRequests_len : (s.setRequests rs).len = s.len := rfl
@[simp] theorem setRequests_tr : (s.setRequests rs).tr = s.tr := rfl
@[simp] theorem setRequests_mem : (s.setRequests rs).mem = s.mem := rfl
@[simp] theorem setRequests_params : (s.setRequests rs).params = s.params := rfl
@[simp] theorem setRequests_requests : (s.setRequests rs).requests = rs := rfl
@[simp] theorem setRequests_draws : (s.setRequests rs).draws = s.draws := rfl
@[simp] theorem setRequests_inSize (sp : InSpace) : (s.setRequests rs).inSize sp = s.inSize sp := by cases sp <;> rfl
@[simp] theorem setRequests_inBase (sp : InSpace) : (s.setRequests rs).inBase sp = s.inBase sp := by cases sp <;> rfl
@[simp] theorem setRequests_field (x : Nat) : (s.setRequests rs).field x = s.field x := rfl
@[simp] theorem setRequests_inByte (sp : InSpace) (k : Nat) : (s.setRequests rs).inByte sp k = s.inByte sp k := by cases sp <;> rfl
@[simp] theorem setRequests_outByte (k : Nat) : (s.setRequests rs).outByte k = s.outByte k := rfl
end setRequests

section setW
variable (s : State) (w : Nat)
@[simp] theorem setW_mode : (s.setW w).mode = s.mode := rfl
@[simp] theorem setW_cfg : (s.setW w).cfg = s.cfg := rfl
@[simp] theorem setW_iface : (s.setW w).iface = s.iface := rfl
@[simp] theorem setW_place : (s.setW w).place = s.place := rfl
@[simp] theorem setW_status : (s.setW w).status = s.status := rfl
@[simp] theorem setW_len : (s.setW w).len = s.len := rfl
@[simp] theorem setW_tr : (s.setW w).tr = { s.tr with w := w } := rfl
@[simp] theorem setW_mem : (s.setW w).mem = s.mem := rfl
@[simp] theorem setW_params : (s.setW w).params = s.params := rfl
@[simp] theorem setW_requests : (s.setW w).requests = s.requests := rfl
@[simp] theorem setW_draws : (s.setW w).draws = s.draws := rfl
@[simp] theorem setW_inSize (sp : InSpace) : (s.setW w).inSize sp = s.inSize sp := by cases sp <;> rfl
@[simp] theorem setW_inBase (sp : InSpace) : (s.setW w).inBase sp = s.inBase sp := by cases sp <;> rfl
@[simp] theorem setW_field (x : Nat) : (s.setW w).field x = s.field x := rfl
@[simp] theorem setW_inByte (sp : InSpace) (k : Nat) : (s.setW w).inByte sp k = s.inByte sp k := by cases sp <;> rfl
@[simp] theorem setW_outByte (k : Nat) : (s.setW w).outByte k = s.outByte k := rfl
end setW

section setStage
variable (s : State) (st : Stage)
@[simp] theorem setStage_mode : (s.setStage st).mode = s.mode := rfl
@[simp] theorem setStage_cfg : (s.setStage st).cfg = s.cfg := rfl
@[simp] theorem setStage_iface : (s.setStage st).iface = s.iface := rfl
@[simp] theorem setStage_place : (s.setStage st).place = s.place := rfl
@[simp] theorem setStage_status : (s.setStage st).status = s.status := rfl
@[simp] theorem setStage_len : (s.setStage st).len = s.len := rfl
@[simp] theorem setStage_tr : (s.setStage st).tr = { s.tr with stage := st } := rfl
@[simp] theorem setStage_mem : (s.setStage st).mem = s.mem := rfl
@[simp] theorem setStage_params : (s.setStage st).params = s.params := rfl
@[simp] theorem setStage_requests : (s.setStage st).requests = s.requests := rfl
@[simp] theorem setStage_draws : (s.setStage st).draws = s.draws := rfl
@[simp] theorem setStage_inSize (sp : InSpace) : (s.setStage st).inSize sp = s.inSize sp := by cases sp <;> rfl
@[simp] theorem setStage_inBase (sp : InSpace) : (s.setStage st).inBase sp = s.inBase sp := by cases sp <;> rfl
@[simp] theorem setStage_field (x : Nat) : (s.setStage st).field x = s.field x := rfl
@[simp] theorem setStage_inByte (sp : InSpace) (k : Nat) : (s.setStage st).inByte sp k = s.inByte sp k := by cases sp <;> rfl
@[simp] theorem setStage_outByte (k : Nat) : (s.setStage st).outByte k = s.outByte k := rfl
end setStage

section setUnit
variable (s : State) (u : RunUnit)
@[simp] theorem setUnit_mode : (s.setUnit u).mode = s.mode := rfl
@[simp] theorem setUnit_cfg : (s.setUnit u).cfg = s.cfg := rfl
@[simp] theorem setUnit_iface : (s.setUnit u).iface = s.iface := rfl
@[simp] theorem setUnit_place : (s.setUnit u).place = s.place := rfl
@[simp] theorem setUnit_status : (s.setUnit u).status = s.status := rfl
@[simp] theorem setUnit_len : (s.setUnit u).len = s.len := rfl
@[simp] theorem setUnit_tr : (s.setUnit u).tr = { s.tr with unit := u } := rfl
@[simp] theorem setUnit_mem : (s.setUnit u).mem = s.mem := rfl
@[simp] theorem setUnit_params : (s.setUnit u).params = s.params := rfl
@[simp] theorem setUnit_requests : (s.setUnit u).requests = s.requests := rfl
@[simp] theorem setUnit_draws : (s.setUnit u).draws = s.draws := rfl
@[simp] theorem setUnit_inSize (sp : InSpace) : (s.setUnit u).inSize sp = s.inSize sp := by cases sp <;> rfl
@[simp] theorem setUnit_inBase (sp : InSpace) : (s.setUnit u).inBase sp = s.inBase sp := by cases sp <;> rfl
@[simp] theorem setUnit_field (x : Nat) : (s.setUnit u).field x = s.field x := rfl
@[simp] theorem setUnit_inByte (sp : InSpace) (k : Nat) : (s.setUnit u).inByte sp k = s.inByte sp k := by cases sp <;> rfl
@[simp] theorem setUnit_outByte (k : Nat) : (s.setUnit u).outByte k = s.outByte k := rfl
end setUnit

section setInput
variable (s : State) (sp : InSpace) (base len : Nat)
@[simp] theorem setInput_mode : (s.setInput sp base len).mode = s.mode := by cases sp <;> rfl
@[simp] theorem setInput_cfg : (s.setInput sp base len).cfg = s.cfg := by cases sp <;> rfl
@[simp] theorem setInput_status : (s.setInput sp base len).status = s.status := by cases sp <;> rfl
@[simp] theorem setInput_len : (s.setInput sp base len).len = s.len := by cases sp <;> rfl
@[simp] theorem setInput_tr : (s.setInput sp base len).tr = s.tr := by cases sp <;> rfl
@[simp] theorem setInput_mem : (s.setInput sp base len).mem = s.mem := by cases sp <;> rfl
@[simp] theorem setInput_params : (s.setInput sp base len).params = s.params := by cases sp <;> rfl
@[simp] theorem setInput_requests : (s.setInput sp base len).requests = s.requests := by cases sp <;> rfl
@[simp] theorem setInput_draws : (s.setInput sp base len).draws = s.draws := by cases sp <;> rfl
@[simp] theorem setInput_cmd : (s.setInput sp base len).iface.cmd = s.iface.cmd := by cases sp <;> rfl
@[simp] theorem setInput_cap : (s.setInput sp base len).iface.cap = s.iface.cap := by cases sp <;> rfl
@[simp] theorem setInput_out : (s.setInput sp base len).place.out = s.place.out := by cases sp <;> rfl
@[simp] theorem setInput_inSize : (s.setInput sp base len).inSize sp = s.field len := by cases sp <;> rfl
@[simp] theorem setInput_inBase : (s.setInput sp base len).inBase sp = base := by cases sp <;> rfl
theorem setInput_inSize_other (sp' : InSpace) (h : sp' ≠ sp) : (s.setInput sp base len).inSize sp' = s.inSize sp' := by
  cases sp <;> cases sp' <;> first | rfl | exact absurd rfl h
theorem setInput_inBase_other (sp' : InSpace) (h : sp' ≠ sp) : (s.setInput sp base len).inBase sp' = s.inBase sp' := by
  cases sp <;> cases sp' <;> first | rfl | exact absurd rfl h
end setInput

section setOut
variable (s : State) (base cap : Nat)
@[simp] theorem setOut_mode : (s.setOut base cap).mode = s.mode := rfl
@[simp] theorem setOut_cfg : (s.setOut base cap).cfg = s.cfg := rfl
@[simp] theorem setOut_status : (s.setOut base cap).status = s.status := rfl
@[simp] theorem setOut_len : (s.setOut base cap).len = s.len := rfl
@[simp] theorem setOut_tr : (s.setOut base cap).tr = s.tr := rfl
@[simp] theorem setOut_mem : (s.setOut base cap).mem = s.mem := rfl
@[simp] theorem setOut_params : (s.setOut base cap).params = s.params := rfl
@[simp] theorem setOut_requests : (s.setOut base cap).requests = s.requests := rfl
@[simp] theorem setOut_draws : (s.setOut base cap).draws = s.draws := rfl
@[simp] theorem setOut_cap : (s.setOut base cap).iface.cap = s.field cap := rfl
@[simp] theorem setOut_cmd : (s.setOut base cap).iface.cmd = s.iface.cmd := rfl
@[simp] theorem setOut_out : (s.setOut base cap).place.out = base := rfl
@[simp] theorem setOut_inSize (sp : InSpace) : (s.setOut base cap).inSize sp = s.inSize sp := by cases sp <;> rfl
@[simp] theorem setOut_inBase (sp : InSpace) : (s.setOut base cap).inBase sp = s.inBase sp := by cases sp <;> rfl
end setOut

section finish
variable (n : Nat) (s : State)
@[simp] theorem finish_mode : (finish n s).mode = .idle := rfl
@[simp] theorem finish_cfg : (finish n s).cfg = s.cfg := rfl
@[simp] theorem finish_iface : (finish n s).iface = s.iface := rfl
@[simp] theorem finish_place : (finish n s).place = s.place := rfl
@[simp] theorem finish_status : (finish n s).status = .ok := rfl
@[simp] theorem finish_len : (finish n s).len = n := rfl
@[simp] theorem finish_tr : (finish n s).tr = .free s.draws := rfl
@[simp] theorem finish_mem : (finish n s).mem = s.mem.fillFree s.draws s.place.out n (s.iface.cap - n) := rfl
@[simp] theorem finish_params : (finish n s).params = s.params := rfl
@[simp] theorem finish_requests : (finish n s).requests = s.requests := rfl
@[simp] theorem finish_draws : (finish n s).draws = s.draws + 1 := rfl
@[simp] theorem finish_inSize (sp : InSpace) : (finish n s).inSize sp = s.inSize sp := by cases sp <;> rfl
@[simp] theorem finish_inBase (sp : InSpace) : (finish n s).inBase sp = s.inBase sp := by cases sp <;> rfl
end finish

section raiseError
variable (e : ErrKind) (s : State)
@[simp] theorem raiseError_mode : (raiseError e s).mode = .idle := rfl
@[simp] theorem raiseError_cfg : (raiseError e s).cfg = s.cfg := rfl
@[simp] theorem raiseError_iface : (raiseError e s).iface = s.iface := rfl
@[simp] theorem raiseError_place : (raiseError e s).place = s.place := rfl
@[simp] theorem raiseError_status : (raiseError e s).status = e.status := rfl
@[simp] theorem raiseError_len : (raiseError e s).len = s.field (Config.freeLen s.draws) := rfl
@[simp] theorem raiseError_tr : (raiseError e s).tr = .free s.draws := rfl
@[simp] theorem raiseError_mem : (raiseError e s).mem = s.mem.fillFree s.draws s.place.out 0 s.iface.cap := rfl
@[simp] theorem raiseError_params : (raiseError e s).params = s.params := rfl
@[simp] theorem raiseError_requests : (raiseError e s).requests = s.requests := rfl
@[simp] theorem raiseError_draws : (raiseError e s).draws = s.draws + 1 := rfl
@[simp] theorem raiseError_inSize (sp : InSpace) : (raiseError e s).inSize sp = s.inSize sp := by cases sp <;> rfl
@[simp] theorem raiseError_inBase (sp : InSpace) : (raiseError e s).inBase sp = s.inBase sp := by cases sp <;> rfl
end raiseError

section blockReset
variable  (s : State)
@[simp] theorem blockReset_mode : (blockReset s).mode = .idle := rfl
@[simp] theorem blockReset_cfg : (blockReset s).cfg = .reset := rfl
@[simp] theorem blockReset_iface : (blockReset s).iface = s.freeIface := rfl
@[simp] theorem blockReset_place : (blockReset s).place = s.place := rfl
@[simp] theorem blockReset_status : (blockReset s).status = .ofCode (Config.freeStatus s.draws) := rfl
@[simp] theorem blockReset_len : (blockReset s).len = s.field (Config.freeLen s.draws) := rfl
@[simp] theorem blockReset_tr : (blockReset s).tr = .free s.draws := rfl
@[simp] theorem blockReset_mem : (blockReset s).mem = s.memAfterReset := rfl
@[simp] theorem blockReset_params : (blockReset s).params = s.params := rfl
@[simp] theorem blockReset_requests : (blockReset s).requests = s.requests := rfl
@[simp] theorem blockReset_draws : (blockReset s).draws = s.draws + 1 := rfl
@[simp] theorem blockReset_inBase (sp : InSpace) : (blockReset s).inBase sp = s.inBase sp := by cases sp <;> rfl
end blockReset

@[simp] theorem setRequests_self (s : State) : s.setRequests s.requests = s := rfl

@[simp] theorem setRequests_setRequests (s : State) (a b : List Request) : (s.setRequests a).setRequests b = s.setRequests b := rfl

/-- A configuration register reads back the value last written (R28). -/
@[simp] theorem cfg_get_set (c : CfgRegs) (r : CfgReg) (v : Byte) : (c.set r v).get r = v := by cases r <;> rfl

/-- Writing one configuration register leaves the others alone. -/
theorem cfg_get_set_other (c : CfgRegs) (r q : CfgReg) (v : Byte) (h : q ≠ r) : (c.set r v).get q = c.get q := by
  cases r <;> cases q <;> first | rfl | exact absurd rfl h

@[simp] theorem status_ofCode_code (st : Status) : Status.ofCode st.code = st := by cases st <;> rfl

theorem errKind_status_ne_ok (e : ErrKind) : e.status ≠ .ok := by cases e <;> decide

end Sys2Proof.Laws
end

