-- ==== Sys2Proof/Laws/Memory.lean ====
section
/-! SUPPORT. Memory: what a read gives after each operation, that every operation keeps the canonical form, and that two
memories in canonical form with the same reads are equal. -/

namespace Sys2Proof.Laws

open Sys2Proof.Machine

@[simp] theorem read_nil (a : Nat) : Memory.read [] a = Config.unlistedByte := rfl

@[simp] theorem read_cons (c : Host.Cell) (m : Memory) (a : Nat) :
    Memory.read (c :: m) a = if a = c.1 then c.2 else Memory.read m a := rfl

/-- An address without an entry reads as unlisted. -/
theorem read_unlisted (m : Memory) (a : Nat) (h : ∀ c ∈ m, c.1 ≠ a) : Memory.read m a = Config.unlistedByte := by
  induction m with
  | nil => rfl
  | cons c m ih =>
    have hc : a ≠ c.1 := fun e => h c (by simp) e.symm
    simp only [read_cons, hc, if_false]
    exact ih fun d hd => h d (by simp [hd])

theorem mem_unlist {m : Memory} {a : Nat} {c : Host.Cell} : c ∈ Memory.unlist m a ↔ c ∈ m ∧ c.1 ≠ a := by
  simp [Memory.unlist]

theorem read_unlist_same (m : Memory) (a : Nat) : (Memory.unlist m a).read a = Config.unlistedByte :=
  read_unlisted _ _ fun _ hc => (mem_unlist.1 hc).2

theorem read_unlist_other (m : Memory) {a b : Nat} (h : b ≠ a) : (Memory.unlist m a).read b = m.read b := by
  induction m with
  | nil => rfl
  | cons c m ih =>
    by_cases hc : c.1 = a
    · have hb : b ≠ c.1 := by omega
      have : Memory.unlist (c :: m) a = Memory.unlist m a := by simp [Memory.unlist, hc]
      rw [this, ih, read_cons, if_neg hb]
    · have : Memory.unlist (c :: m) a = c :: Memory.unlist m a := by simp [Memory.unlist, hc]
      rw [this, read_cons, read_cons, ih]

theorem mem_enlist {m : Memory} {a : Nat} {v : Byte} {c : Host.Cell} : c ∈ Memory.enlist m a v ↔ c = (a, v) ∨ c ∈ m := by
  induction m with
  | nil => simp [Memory.enlist]
  | cons d m ih =>
    unfold Memory.enlist
    split
    · simp
    · rw [List.mem_cons, ih, List.mem_cons]
      tauto

theorem read_enlist_same (m : Memory) (a : Nat) (v : Byte) (h : ∀ c ∈ m, c.1 ≠ a) : (Memory.enlist m a v).read a = v := by
  induction m with
  | nil => simp [Memory.enlist]
  | cons d m ih =>
    unfold Memory.enlist
    split
    · simp
    · have hd : a ≠ d.1 := fun e => h d (by simp) e.symm
      simp only [read_cons, hd, if_false]
      exact ih fun c hc => h c (by simp [hc])

theorem read_enlist_other (m : Memory) {a b : Nat} (v : Byte) (h : b ≠ a) : (Memory.enlist m a v).read b = m.read b := by
  induction m with
  | nil => simp [Memory.enlist, h]
  | cons d m ih =>
    unfold Memory.enlist
    split
    · simp [h]
    · simp only [read_cons, ih]

/-- A read after a write to the same address gives the byte written. -/
@[simp] theorem read_write_same (m : Memory) (a : Nat) (v : Byte) : (m.write a v).read a = v := by
  unfold Memory.write
  split
  · rename_i hv
    rw [hv, read_unlist_same]
  · exact read_enlist_same _ _ _ fun c hc => (mem_unlist.1 hc).2

/-- A write leaves every other address alone. -/
theorem read_write_other (m : Memory) {a b : Nat} (v : Byte) (h : b ≠ a) : (m.write a v).read b = m.read b := by
  unfold Memory.write
  split
  · exact read_unlist_other m h
  · rw [read_enlist_other _ _ h, read_unlist_other _ h]

/-- What a write does to every address at once. -/
theorem read_write (m : Memory) (a b : Nat) (v : Byte) : (m.write a v).read b = if b = a then v else m.read b := by
  split
  · rename_i h
    rw [h, read_write_same]
  · rename_i h
    exact read_write_other m v h

theorem wf_nil : Memory.wf [] := ⟨List.Pairwise.nil, by simp⟩

theorem wf_unlist {m : Memory} (h : m.wf) (a : Nat) : (Memory.unlist m a).wf :=
  ⟨h.1.filter _, fun c hc => h.2 c (mem_unlist.1 hc).1⟩

theorem pairwise_enlist {m : Memory} (a : Nat) (v : Byte) (h : m.Pairwise fun c d => c.1 < d.1) (ha : ∀ c ∈ m, c.1 ≠ a) :
    (Memory.enlist m a v).Pairwise fun c d => c.1 < d.1 := by
  induction m with
  | nil => simp [Memory.enlist]
  | cons d m ih =>
    obtain ⟨hd, hm⟩ := List.pairwise_cons.1 h
    have hda : d.1 ≠ a := ha d (by simp)
    unfold Memory.enlist
    split
    · rename_i hlt
      refine List.pairwise_cons.2 ⟨fun c hc => ?_, h⟩
      rcases List.mem_cons.1 hc with rfl | hc
      · exact hlt
      · exact lt_trans hlt (hd c hc)
    · rename_i hlt
      refine List.pairwise_cons.2 ⟨fun c hc => ?_, ih hm fun c hc => ha c (by simp [hc])⟩
      rcases mem_enlist.1 hc with rfl | hc
      · show d.1 < a
        have : ¬ a < d.1 := hlt
        omega
      · exact hd c hc

/-- A write keeps the canonical form. -/
theorem wf_write {m : Memory} (h : m.wf) (a : Nat) (v : Byte) : (m.write a v).wf := by
  unfold Memory.write
  split
  · exact wf_unlist h a
  · rename_i hv
    have he := wf_unlist h a
    refine ⟨pairwise_enlist a v he.1 fun c hc => (mem_unlist.1 hc).2, fun c hc => ?_⟩
    rcases mem_enlist.1 hc with rfl | hc
    · exact hv
    · exact he.2 c hc

/-- Free bytes keep the canonical form. -/
theorem wf_fillFree (draw out first count : Nat) {m : Memory} (h : m.wf) : (m.fillFree draw out first count).wf := by
  induction count generalizing first m with
  | zero => exact h
  | succ n ih => exact ih (first + 1) (wf_write h _ _)

/-- What drawing OUT[first .. first+count-1] freely does to every address. -/
theorem read_fillFree (draw out first count : Nat) (m : Memory) (a : Nat) :
    (m.fillFree draw out first count).read a =
      if out + first ≤ a ∧ a < out + first + count then Config.freeOutByte draw (a - out) else m.read a := by
  induction count generalizing first m with
  | zero =>
    rw [if_neg (by omega)]
    rfl
  | succ n ih =>
    rw [Memory.fillFree, ih, read_write]
    by_cases h1 : a = out + first
    · subst h1
      rw [if_neg (by omega), if_pos rfl, if_pos (by omega)]
      congr 1
      omega
    · by_cases h2 : out + first ≤ a ∧ a < out + first + (n + 1)
      · rw [if_pos (by omega), if_pos h2]
      · rw [if_neg (by omega), if_neg h1, if_neg h2]

/-- Drawing bytes of OUT freely leaves every other address alone. -/
theorem read_fillFree_other (draw out first count : Nat) (m : Memory) {a : Nat}
    (h : a < out + first ∨ out + first + count ≤ a) : (m.fillFree draw out first count).read a = m.read a := by
  rw [read_fillFree, if_neg (by omega)]

theorem read_of_mem {m : Memory} (h : m.Pairwise fun c d => c.1 < d.1) {c : Host.Cell} (hc : c ∈ m) : m.read c.1 = c.2 := by
  induction m with
  | nil => cases hc
  | cons d m ih =>
    obtain ⟨hd, hm⟩ := List.pairwise_cons.1 h
    rcases List.mem_cons.1 hc with rfl | hc
    · simp
    · have : c.1 ≠ d.1 := (hd c hc).ne'
      rw [read_cons, if_neg this, ih hm hc]

theorem mem_of_read {m : Memory} {a : Nat} (h : m.read a ≠ Config.unlistedByte) : (a, m.read a) ∈ m := by
  induction m with
  | nil => exact absurd rfl h
  | cons d m ih =>
    rw [read_cons] at h ⊢
    split
    · rename_i e
      simp [e]
    · rename_i e
      rw [if_neg e] at h
      exact List.mem_cons_of_mem _ (ih h)

/-- Equal reads, equal memories: the canonical form is canonical. -/
theorem memory_ext {m n : Memory} (hm : m.wf) (hn : n.wf) (h : ∀ a, m.read a = n.read a) : m = n := by
  have sub : ∀ {m n : Memory}, m.wf → n.wf → (∀ a, m.read a = n.read a) → ∀ c ∈ m, c ∈ n := by
    intro m n hm hn h c hc
    have hv := read_of_mem hm.1 hc
    have hne : n.read c.1 ≠ Config.unlistedByte := by rw [← h, hv]; exact hm.2 c hc
    have := mem_of_read hne
    rwa [← h, hv] at this
  have hmn : ∀ c, c ∈ m ↔ c ∈ n := fun c => ⟨sub hm hn h c, sub hn hm (fun a => (h a).symm) c⟩
  have nodup : ∀ {m : Memory}, m.wf → m.Nodup := fun hm => hm.1.imp fun h e => by simp [e] at h
  have perm : m.Perm n := (List.perm_ext_iff_of_nodup (nodup hm) (nodup hn)).2 hmn
  refine perm.eq_of_pairwise (fun a b _ _ h1 h2 => ?_) hm.1 hn.1
  exact absurd h1 (by omega)

end Sys2Proof.Laws
end

