-- ==== Sys2Proof/Laws/Run.lean ====
section
/-! SUPPORT. The primitives of a running operation: what MemRead, MemWrite and Emit do, runs of bytes stored one after the other,
which bytes non-overlap protects, and when a command is refused. -/

namespace Sys2Proof.Laws

open Sys2Proof.Machine

@[simp] theorem run_bind_ok {α β : Type} (a : α) (f : α → Run β) : ((Except.ok a : Run α) >>= f) = f a := rfl

@[simp] theorem run_bind_error {α β : Type} (e : Halt) (f : α → Run β) : ((Except.error e : Run α) >>= f) = .error e := rfl

@[simp] theorem conclude_ok (s : State) : conclude (.ok s) = .next s := rfl

@[simp] theorem conclude_raised (e : ErrKind) (s : State) : conclude (.error (.raised e s)) = .next (raiseError e s) := rfl

@[simp] theorem conclude_fault (f : Fault) : conclude (.error (.fault f)) = .fault f := rfl

theorem readIn_of_lt {sp : InSpace} {k : Nat} {s : State} (h : k < s.inSize sp) : readIn sp k s = .ok (s.inByte sp k) := by
  simp [readIn, h]

theorem writeOut_of_lt {k : Nat} {v : Byte} {s : State} (h : k < s.iface.cap) :
    writeOut k v s = .ok (s.setMem (s.mem.write (s.place.out + k) v)) := by
  simp [writeOut, h]

/-- Memory after bytes are stored one after the other from an address on. -/
def stored (m : Memory) (a : Nat) : List Byte → Memory
  | [] => m
  | v :: vs => stored (m.write a v) (a + 1) vs

@[simp] theorem stored_nil (m : Memory) (a : Nat) : stored m a [] = m := rfl

@[simp] theorem stored_cons (m : Memory) (a : Nat) (v : Byte) (vs : List Byte) :
    stored m a (v :: vs) = stored (m.write a v) (a + 1) vs := rfl

theorem stored_append (m : Memory) (a : Nat) (vs ws : List Byte) :
    stored m a (vs ++ ws) = stored (stored m a vs) (a + vs.length) ws := by
  induction vs generalizing m a with
  | nil => rfl
  | cons v vs ih =>
    simp only [List.cons_append, stored_cons, ih, List.length_cons]
    congr 1
    omega

theorem wf_stored {m : Memory} (h : m.wf) (a : Nat) (vs : List Byte) : (stored m a vs).wf := by
  induction vs generalizing m a with
  | nil => exact h
  | cons v vs ih => exact ih (wf_write h a v) _

/-- Storing bytes leaves every address outside them alone. -/
theorem read_stored_other (m : Memory) (a : Nat) (vs : List Byte) {b : Nat} (h : b < a ∨ a + vs.length ≤ b) :
    (stored m a vs).read b = m.read b := by
  induction vs generalizing m a with
  | nil => rfl
  | cons v vs ih =>
    simp only [List.length_cons] at h
    rw [stored_cons, ih _ _ (by omega), read_write_other _ _ (by omega)]

/-- Each stored byte reads back. -/
theorem read_stored (m : Memory) (a : Nat) (vs : List Byte) {k : Nat} (h : k < vs.length) :
    (stored m a vs).read (a + k) = vs[k] := by
  induction vs generalizing m a k with
  | nil => simp at h
  | cons v vs ih =>
    cases k with
    | zero => rw [stored_cons, read_stored_other _ _ _ (by omega)]; simp
    | succ k =>
      have := ih (m.write a v) (a + 1) (k := k) (by simpa using h)
      rw [stored_cons, List.getElem_cons_succ, ← this, show a + (k + 1) = a + 1 + k by omega]

theorem shareByte_eq_false {a n b m : Nat} :
    shareByte a n b m = false ↔ ∀ k j, k < n → j < m → a + k ≠ b + j := by
  simp only [shareByte, decide_eq_false_iff_not, lt_min_iff, max_lt_iff]
  constructor
  · intro h k j hk hj e
    omega
  · intro h
    by_contra hc
    rcases le_total a b with hab | hab
    · exact h (b - a) 0 (by omega) (by omega) (by omega)
    · exact h 0 (a - b) (by omega) (by omega) (by omega)

theorem outOverlaps_eq_false {s : State} : s.outOverlaps = false ↔ s.Apart := by
  constructor
  · intro h sp k j hk hj
    simp only [State.outOverlaps, List.any_cons, List.any_nil, Bool.or_false, Bool.or_eq_false_iff] at h
    obtain ⟨h1, h2, h3⟩ := h
    cases sp
    · exact shareByte_eq_false.1 h1 k j hk hj
    · exact shareByte_eq_false.1 h2 k j hk hj
    · exact shareByte_eq_false.1 h3 k j hk hj
  · intro h
    simp only [State.outOverlaps, List.any_cons, List.any_nil, Bool.or_false, Bool.or_eq_false_iff]
    exact ⟨shareByte_eq_false.2 (h .digs), shareByte_eq_false.2 (h .digd), shareByte_eq_false.2 (h .txt)⟩

theorem digitsTooLong_eq_false {i : Instr} {s : State} : s.digitsTooLong i = false ↔ s.DigitsFit i := by
  cases i with
  | encaddr => simp [State.digitsTooLong, State.DigitsFit]
  | pack7 => simp [State.digitsTooLong, State.DigitsFit]
  | asmpdu smsc => cases smsc <;> simp [State.digitsTooLong, State.DigitsFit]

/-- A command is accepted exactly when nothing refuses it. -/
theorem refusal?_eq_none {i : Instr} {s : State} : refusal? i s = none ↔ s.accepts i := by
  rw [State.accepts, ← digitsTooLong_eq_false, ← outOverlaps_eq_false, refusal?]
  by_cases hm : s.mode = .idle <;> cases s.digitsTooLong i <;> cases s.outOverlaps <;> simp [hm]

theorem accept_of_accepts {i : Instr} {s : State} (h : s.accepts i) : accept i s = .ok (started i s) := by
  simp [accept, refusal?_eq_none.2 h]

theorem transact_of_accepts {i : Instr} {body : State → Run State} {s : State} (h : s.accepts i) :
    transact i body s = conclude (body (started i s)) := by
  simp [transact, accept_of_accepts h]

theorem transact_of_refusal {i : Instr} {body : State → Run State} {s : State} {r : Refusal} (h : refusal? i s = some r) :
    transact i body s = .refused r := by
  simp [transact, accept, h]

/-- Bytes stored in OUT leave the input spaces alone. -/
theorem inByte_stored {s : State} (ha : s.Apart) {b : Nat} {vs : List Byte} (hb : b + vs.length ≤ s.iface.cap)
    {sp : InSpace} {j : Nat} (hj : j < s.inSize sp) :
    (s.setMem (stored s.mem (s.place.out + b) vs)).inByte sp j = s.inByte sp j := by
  unfold State.inByte
  rw [setMem_mem, setMem_inBase]
  apply read_stored_other
  by_contra hc
  have := ha sp (s.inBase sp + j - s.place.out) j (by omega) hj
  omega

/-- `Emit` either writes one byte at W and moves W, or raises CapacityError and changes nothing (R151). -/
theorem emit_eq (v : Byte) (s : State) :
    emit v s = if s.tr.w < s.iface.cap then
        .ok ((s.setMem (s.mem.write (s.place.out + s.tr.w) v)).setW (s.tr.w + 1))
      else .error (.raised .capacity s) := by
  unfold emit
  by_cases h : s.tr.w < s.iface.cap
  · rw [if_neg (by omega), if_pos h, writeOut_of_lt h]
    rfl
  · rw [if_pos (by omega), if_neg h]

/-- The state after bytes are emitted at W. -/
def emitted (s : State) (vs : List Byte) : State :=
  (s.setMem (stored s.mem (s.place.out + s.tr.w) vs)).setW (s.tr.w + vs.length)

/-- Emitting bytes that fit writes them at W and moves W past them. -/
theorem emitAll_of_fits (vs : List Byte) (s : State) (h : s.tr.w + vs.length ≤ s.iface.cap) :
    emitAll vs s = .ok (emitted s vs) := by
  induction vs generalizing s with
  | nil => rfl
  | cons v vs ih =>
    simp only [List.length_cons] at h
    rw [emitAll, emit_eq, if_pos (by omega), run_bind_ok, ih _ (by simp only [setW_tr, setW_iface, setMem_iface]; omega)]
    simp only [emitted, stored_cons, List.length_cons]
    congr 1
    simp only [State.setW, State.setMem, State.setTr, State.mk.injEq, Transient.mk.injEq, true_and, and_true]
    constructor
    · omega
    · rfl

/-- Emitting bytes that do not fit raises CapacityError. -/
theorem emitAll_of_short (vs : List Byte) (s : State) (hv : vs ≠ []) (hw : s.iface.cap < s.tr.w + vs.length) :
    ∃ s', emitAll vs s = .error (.raised .capacity s') ∧ ∃ ws, s.tr.w + ws.length ≤ max s.tr.w s.iface.cap ∧ s' = emitted s ws := by
  induction vs generalizing s with
  | nil => exact absurd rfl hv
  | cons v vs ih =>
    simp only [List.length_cons] at hw
    rw [emitAll, emit_eq]
    by_cases h : s.tr.w < s.iface.cap
    · rw [if_pos h, run_bind_ok]
      have hne : vs ≠ [] := by
        rintro rfl
        simp at hw
        omega
      obtain ⟨s', he, ws, hws, rfl⟩ := ih ((s.setMem (s.mem.write (s.place.out + s.tr.w) v)).setW (s.tr.w + 1)) hne
        (by simp only [setW_tr, setW_iface, setMem_iface]; omega)
      refine ⟨_, he, v :: ws, ?_, ?_⟩
      · simp only [setW_tr, setW_iface, setMem_iface] at hws
        simp only [List.length_cons]
        omega
      · simp only [emitted, stored_cons, List.length_cons, State.setW, State.setMem, State.setTr, State.mk.injEq,
          Transient.mk.injEq, true_and, and_true]
        constructor
        · omega
        · rfl
    · rw [if_neg h, run_bind_error]
      exact ⟨s, rfl, [], by simp, rfl⟩

end Sys2Proof.Laws
end

