-- ==== Sys2Proof/Laws/Units.lean ====
section
/-! SUPPORT. The unit procedures: the state after each turn of their loops, and one lemma for each that says all it can do. -/

namespace Sys2Proof.Laws

open Sys2Proof.Machine

/-! ### AddrEncode -/

theorem digitsOk_eq (sp : InSpace) (n : Nat) (s : State) (h : n ≤ s.inSize sp) :
    digitsOk sp n s = .ok ((List.range n).all fun k => isDigit (s.inByte sp k)) := by
  induction n with
  | zero => rfl
  | succ n ih =>
    rw [digitsOk, readIn_of_lt (by omega), run_bind_ok, ih (by omega), run_bind_ok, List.range_succ]
    simp [Bool.and_comm]

/-- The byte AddrEncode writes for digit pair k, by nibbles (R101). -/
def pairByte (s : State) (sp : InSpace) (n k : Nat) : Byte :=
  addrByte (digit (s.inByte sp (2 * k))) (if 2 * k + 1 < n then digit (s.inByte sp (2 * k + 1)) else Config.padNibble)

/-- The first k bytes AddrEncode writes. -/
def pairBytes (s : State) (sp : InSpace) (n k : Nat) : List Byte := (List.range k).map (pairByte s sp n)

@[simp] theorem pairBytes_length (s : State) (sp : InSpace) (n k : Nat) : (pairBytes s sp n k).length = k := by
  simp [pairBytes]

theorem pairBytes_succ (s : State) (sp : InSpace) (n k : Nat) :
    pairBytes s sp n (k + 1) = pairBytes s sp n k ++ [pairByte s sp n k] := by
  simp [pairBytes, List.range_succ]

/-- The state after k turns of AddrEncode's loop, from the state `s` before the call. -/
def addrState (s : State) (src : InSpace) (ndig base k : Nat) : State :=
  (s.setMem (stored s.mem (s.place.out + base) (pairBytes s src ndig k))).setTr
    { s.tr with src := src, ndig := ndig, base := base, di := 2 * k, wo := k, unit := .addrEncode }

theorem addrState_inByte {s : State} {src : InSpace} {ndig base k : Nat} (ha : s.Apart) (hk : base + k ≤ s.iface.cap)
    {sp : InSpace} {j : Nat} (hj : j < s.inSize sp) : (addrState s src ndig base k).inByte sp j = s.inByte sp j := by
  rw [addrState, setTr_inByte]
  exact inByte_stored ha (by simpa using hk) hj

theorem ceilDiv_two (n : Nat) : ceilDiv n 2 = (n + 1) / 2 := rfl

/-- One turn of the loop goes from each state to the next. -/
theorem addrIter_addrState {s : State} {src : InSpace} {ndig base k : Nat} (ha : s.Apart) (hn : ndig ≤ s.inSize src)
    (hfit : base + ceilDiv ndig 2 ≤ s.iface.cap) (hk : 2 * k < ndig) :
    addrIter (addrState s src ndig base k) = .ok (addrState s src ndig base (k + 1)) := by
  rw [ceilDiv_two] at hfit
  have r0 : readIn src (2 * k) (addrState s src ndig base k) = .ok (s.inByte src (2 * k)) := by
    rw [readIn_of_lt (by simp only [addrState, setTr_inSize, setMem_inSize]; omega),
      addrState_inByte ha (by omega) (by omega)]
  have w : ∀ v, writeOut (base + k) v (addrState s src ndig base k) =
      .ok ((addrState s src ndig base k).setMem
        ((addrState s src ndig base k).mem.write ((addrState s src ndig base k).place.out + (base + k)) v)) :=
    fun v => writeOut_of_lt (by simp only [addrState, setTr_iface, setMem_iface]; omega)
  have next : ∀ v, v = pairByte s src ndig k →
      ((addrState s src ndig base k).setMem
        ((addrState s src ndig base k).mem.write ((addrState s src ndig base k).place.out + (base + k)) v)).setTr
          { (addrState s src ndig base k).tr with wo := k + 1, di := 2 * k + 2 } = addrState s src ndig base (k + 1) := by
    rintro v rfl
    simp only [addrState, pairBytes_succ, stored_append, pairBytes_length, stored_cons, stored_nil]
    simp only [State.setMem, State.setTr, State.mk.injEq, Transient.mk.injEq, true_and, and_true, Nat.add_assoc]
    omega
  unfold addrIter highNibble
  simp only [show (addrState s src ndig base k).tr.src = src from rfl, show (addrState s src ndig base k).tr.di = 2 * k from rfl,
    show (addrState s src ndig base k).tr.ndig = ndig from rfl, show (addrState s src ndig base k).tr.base = base from rfl,
    show (addrState s src ndig base k).tr.wo = k from rfl, r0, run_bind_ok]
  by_cases h1 : 2 * k + 1 < ndig
  · have r1 : readIn src (2 * k + 1) (addrState s src ndig base k) = .ok (s.inByte src (2 * k + 1)) := by
      rw [readIn_of_lt (by simp only [addrState, setTr_inSize, setMem_inSize]; omega),
        addrState_inByte ha (by omega) (by omega)]
    rw [if_pos h1, r1, run_bind_ok, run_bind_ok, w, run_bind_ok]
    exact congrArg Except.ok (next _ (by rw [pairByte, if_pos h1]))
  · rw [if_neg h1, run_bind_ok, w, run_bind_ok]
    exact congrArg Except.ok (next _ (by rw [pairByte, if_neg h1]))

theorem addrLoop_addrState {s : State} {src : InSpace} {ndig base : Nat} (ha : s.Apart) (hn : ndig ≤ s.inSize src)
    (hfit : base + ceilDiv ndig 2 ≤ s.iface.cap) (fuel k : Nat) (hk : k ≤ ceilDiv ndig 2) (hf : ceilDiv ndig 2 ≤ k + fuel) :
    addrLoop fuel (addrState s src ndig base k) = .ok (addrState s src ndig base (ceilDiv ndig 2)) := by
  induction fuel generalizing k with
  | zero => rw [show k = ceilDiv ndig 2 by omega]; rfl
  | succ n ih =>
    rw [addrLoop, show (addrState s src ndig base k).tr.di = 2 * k from rfl,
      show (addrState s src ndig base k).tr.ndig = ndig from rfl]
    rw [ceilDiv_two] at *
    by_cases h : 2 * k < ndig
    · rw [if_pos h, addrIter_addrState ha hn (by rw [ceilDiv_two]; omega) h, run_bind_ok, ih (k + 1) (by omega) (by omega)]
    · rw [if_neg h, show k = (ndig + 1) / 2 by omega]

/-- The error check of AddrEncode, and what it leaves (R101). -/
theorem addrEnter_eq {s : State} {src : InSpace} {ndig base capr : Nat} (hn : ndig ≤ s.inSize src) :
    addrEnter src ndig base capr s =
      match pickError s.draws (capr < ceilDiv ndig 2) (!(List.range ndig).all fun k => isDigit (s.inByte src k))
        .capacity .format with
      | some e => .error (.raised e s)
      | none => .ok (addrState s src ndig base 0) := by
  rw [addrEnter, digitsOk_eq _ _ _ hn, run_bind_ok]
  rfl

/-- All that AddrEncode can do from an accepted command: raise one of its two errors where its check stands, or write the
encoded digits from BASE on, WO counting them (R101). -/
theorem addrEncode_eq {s : State} {src : InSpace} {ndig base capr : Nat} (ha : s.Apart) (hn : ndig ≤ s.inSize src)
    (hc : capr ≤ s.iface.cap - base) (hb : base ≤ s.iface.cap) :
    addrEncode src ndig base capr s =
      match pickError s.draws (capr < ceilDiv ndig 2) (!(List.range ndig).all fun k => isDigit (s.inByte src k))
        .capacity .format with
      | some e => .error (.raised e s)
      | none => .ok (addrState s src ndig base (ceilDiv ndig 2)) := by
  rw [addrEncode, addrEnter_eq hn]
  generalize hd : (!(List.range ndig).all fun k => isDigit (s.inByte src k)) = d
  by_cases hcap : capr < ceilDiv ndig 2
  · cases d <;> simp [pickError, hcap]
  · cases d with
    | true => simp [pickError, hcap]
    | false =>
      simp only [pickError, hcap, decide_false, run_bind_ok]
      exact addrLoop_addrState ha hn (by omega) ndig 0 (by omega) (by rw [ceilDiv_two]; omega)

/-! ### SeptetPack -/

theorem packedLength_eq (n : Nat) : packedLength n = (7 * n + 7) / 8 := rfl

/-- The byte the main pass writes after k bytes (R125, R126): P - 1 = k mod 7, I = k + floor(k/7). -/
def passByte (s : State) (k : Nat) : Byte :=
  phaseByte (k % 7 + 1) (septet (s.inByte .txt (k + k / 7))) (septet (s.inByte .txt (k + k / 7 + 1)))

/-- The first k bytes of the main pass. -/
def passBytes (s : State) (k : Nat) : List Byte := (List.range k).map (passByte s)

@[simp] theorem passBytes_length (s : State) (k : Nat) : (passBytes s k).length = k := by simp [passBytes]

theorem passBytes_succ (s : State) (k : Nat) : passBytes s (k + 1) = passBytes s k ++ [passByte s k] := by
  simp [passBytes, List.range_succ]

/-- The state after k steps of the main pass, from the state `s` before the call (R33). -/
def septetState (s : State) (base k : Nat) : State :=
  (s.setMem (stored s.mem (s.place.out + base) (passBytes s k))).setTr
    { s.tr with base := base, p := BitVec.ofNat 3 (k % 7 + 1), i := k + k / 7, o := k, unit := .septetPack }

/-- How many bytes the main pass writes: one less than L, or L where no septet is left over (R129, R130). -/
def passCount (n : Nat) : Nat := 7 * (n / 8) + (n % 8 - 1)

theorem passCount_le (n : Nat) : passCount n ≤ packedLength n := by
  rw [packedLength_eq, passCount]; omega

theorem septetState_inByte {s : State} {base k : Nat} (ha : s.Apart) (hk : base + k ≤ s.iface.cap) {sp : InSpace} {j : Nat}
    (hj : j < s.inSize sp) : (septetState s base k).inByte sp j = s.inByte sp j := by
  rw [septetState, setTr_inByte]
  exact inByte_stored ha (by simpa using hk) hj

theorem septetState_p (s : State) (base k : Nat) : (septetState s base k).tr.p.toNat = k % 7 + 1 := by
  show (BitVec.ofNat 3 (k % 7 + 1)).toNat = k % 7 + 1
  rw [BitVec.toNat_ofNat]
  omega

/-- The phase and the cursor after the next byte are those of one byte more (R127). -/
theorem nextPhase_septetState (s : State) (base k : Nat) :
    nextPhase (septetState s base k).tr = (septetState s base (k + 1)).tr := by
  unfold nextPhase
  rw [septetState_p]
  by_cases h : k % 7 = 6
  · rw [if_pos (by omega)]
    simp only [septetState, setTr_tr, Transient.mk.injEq, true_and, and_true]
    rw [show (k + 1) % 7 + 1 = 1 by omega]
    exact ⟨rfl, by omega⟩
  · rw [if_neg (by omega)]
    simp only [septetState, setTr_tr, Transient.mk.injEq, true_and, and_true]
    rw [show (k + 1) % 7 + 1 = k % 7 + 1 + 1 by omega]
    exact ⟨rfl, by omega⟩

/-- One step of the main pass goes from each state to the next. -/
theorem septetIter_septetState {s : State} {base k : Nat} (ha : s.Apart)
    (hfit : base + packedLength s.iface.nt ≤ s.iface.cap) (hk : k + k / 7 + 1 < s.iface.nt) :
    septetIter (septetState s base k) = .ok (septetState s base (k + 1)) := by
  rw [packedLength_eq] at hfit
  have r : ∀ j, j < s.iface.nt → readIn .txt j (septetState s base k) = .ok (s.inByte .txt j) := fun j hj => by
    rw [readIn_of_lt (by simp only [septetState, setTr_inSize, setMem_inSize]; exact hj),
      septetState_inByte ha (by omega) hj]
  have ri : (septetState s base k).tr.i = k + k / 7 := rfl
  have rb : (septetState s base k).tr.base = base := rfl
  have ro : (septetState s base k).tr.o = k := rfl
  unfold septetIter
  rw [ri, rb, ro, r _ (by omega), run_bind_ok, r _ hk, run_bind_ok, septetState_p, nextPhase_septetState,
    writeOut_of_lt (by simp only [septetState, setTr_iface, setMem_iface]; omega), run_bind_ok]
  simp only [septetState, passBytes_succ, stored_append, passBytes_length, stored_cons, stored_nil]
  simp only [State.setMem, State.setTr, Nat.add_assoc, passByte]

theorem septetLoop_septetState {s : State} {base : Nat} (ha : s.Apart)
    (hfit : base + packedLength s.iface.nt ≤ s.iface.cap) (fuel k : Nat) (hk : k ≤ passCount s.iface.nt)
    (hf : passCount s.iface.nt ≤ k + fuel) :
    septetLoop fuel (septetState s base k) = .ok (septetState s base (passCount s.iface.nt)) := by
  induction fuel generalizing k with
  | zero => rw [show k = passCount s.iface.nt by omega]; rfl
  | succ n ih =>
    rw [septetLoop, show (septetState s base k).tr.i = k + k / 7 from rfl,
      show (septetState s base k).iface.nt = s.iface.nt from rfl]
    by_cases h : k + k / 7 + 1 < s.iface.nt
    · rw [if_pos h, septetIter_septetState ha hfit h, run_bind_ok]
      refine ih (k + 1) ?_ (by omega)
      simp only [passCount] at *
      omega
    · rw [if_neg h, show k = passCount s.iface.nt by simp only [passCount] at *; omega]

/-- The bytes SeptetPack writes, with the leftover (R125, R128). -/
def septetBytes (s : State) : List Byte :=
  passBytes s (passCount s.iface.nt) ++
    if s.iface.nt % 8 = 0 then []
    else [leftoverByte (passCount s.iface.nt % 7 + 1) (septet (s.inByte .txt (s.iface.nt - 1)))]

@[simp] theorem septetBytes_length (s : State) : (septetBytes s).length = packedLength s.iface.nt := by
  rw [septetBytes, packedLength_eq]
  split <;> simp [passCount] <;> omega

/-- The state after SeptetPack, from the state `s` before the call. -/
def septetDone (s : State) (base : Nat) : State :=
  (s.setMem (stored s.mem (s.place.out + base) (septetBytes s))).setTr
    { (septetState s base (passCount s.iface.nt)).tr with o := packedLength s.iface.nt }

theorem septetLeftover_eq {s : State} {base : Nat} (ha : s.Apart) (hfit : base + packedLength s.iface.nt ≤ s.iface.cap) :
    septetLeftover (septetState s base (passCount s.iface.nt)) = .ok (septetDone s base) := by
  set k := passCount s.iface.nt with hkdef
  have hk : k = 7 * (s.iface.nt / 8) + (s.iface.nt % 8 - 1) := hkdef
  unfold septetLeftover
  rw [show (septetState s base k).tr.i = k + k / 7 from rfl, show (septetState s base k).iface.nt = s.iface.nt from rfl]
  by_cases h : s.iface.nt % 8 = 0
  · rw [if_neg (by omega)]
    have hL : packedLength s.iface.nt = k := by rw [packedLength_eq]; omega
    simp only [septetDone, septetState, septetBytes, ← hkdef, h, if_true, List.append_nil, hL, setTr_tr]
  · have hi : k + k / 7 = s.iface.nt - 1 := by omega
    have hL : packedLength s.iface.nt = k + 1 := by rw [packedLength_eq]; omega
    rw [if_pos (by omega), hi, readIn_of_lt (show s.iface.nt - 1 < s.iface.nt by omega),
      septetState_inByte ha (by omega) (show s.iface.nt - 1 < s.iface.nt by omega), run_bind_ok, septetState_p,
      writeOut_of_lt (by
        simp only [septetState, setTr_iface, setMem_iface, setTr_tr]
        omega), run_bind_ok]
    simp only [septetDone, septetState, septetBytes, ← hkdef, h, if_false, hL, setTr_tr, stored_append, passBytes_length,
      stored_cons, stored_nil]
    simp only [State.setMem, State.setTr, Nat.add_assoc]

/-- The error check of SeptetPack, and what it leaves (R123, R124). -/
theorem septetEnter_eq (s : State) (base capr : Nat) :
    septetEnter base capr s =
      match pickError s.draws (160 < s.iface.nt) (capr < packedLength s.iface.nt) .length .capacity with
      | some e => .error (.raised e s)
      | none => .ok (septetState s base 0) := rfl

/-- All that SeptetPack can do from an accepted command: raise one of its two errors where its check stands, or write the packed
text from BASE on, O counting its bytes (R125, R130). -/
theorem septetPack_eq {s : State} {base capr : Nat} (ha : s.Apart) (hc : capr ≤ s.iface.cap - base)
    (hb : base ≤ s.iface.cap) :
    septetPack base capr s =
      match pickError s.draws (160 < s.iface.nt) (capr < packedLength s.iface.nt) .length .capacity with
      | some e => .error (.raised e s)
      | none => .ok (septetDone s base) := by
  rw [septetPack, septetEnter_eq]
  by_cases hlen : 160 < s.iface.nt
  · by_cases hcap : capr < packedLength s.iface.nt <;> simp [pickError, hlen, hcap]
  · by_cases hcap : capr < packedLength s.iface.nt
    · simp [pickError, hlen, hcap]
    · have hfit : base + packedLength s.iface.nt ≤ s.iface.cap := by omega
      simp only [pickError, hlen, hcap, decide_false, run_bind_ok]
      rw [septetLoop_septetState ha hfit s.iface.nt 0 (by omega) (by simp only [passCount]; omega), run_bind_ok,
        septetLeftover_eq ha hfit]

/-! ### The units inside ASMPDU -/

/-- All that an address of ASMPDU can do: raise where AddrEncode's check stands, or write the encoded digits at W and move W
past them (R151). -/
theorem pduAddr_eq {s : State} {src : InSpace} {ndig : Nat} (ha : s.Apart) (hn : ndig ≤ s.inSize src)
    (hw : s.tr.w ≤ s.iface.cap) :
    pduAddr src ndig s =
      match pickError s.draws (s.iface.cap - s.tr.w < ceilDiv ndig 2)
        (!(List.range ndig).all fun k => isDigit (s.inByte src k)) .capacity .format with
      | some e => .error (.raised e s)
      | none => .ok (addrReturn (addrState s src ndig s.tr.w (ceilDiv ndig 2))) := by
  rw [pduAddr, addrEncode_eq ha hn (le_refl _) hw]
  split <;> rfl

/-- All that the user data of ASMPDU can do: raise where SeptetPack's check stands, or write the packed text at W and move W past
it (R151). -/
theorem pduText_eq {s : State} (ha : s.Apart) (hw : s.tr.w ≤ s.iface.cap) :
    pduText s =
      match pickError s.draws (160 < s.iface.nt) (s.iface.cap - s.tr.w < packedLength s.iface.nt) .length .capacity with
      | some e => .error (.raised e s)
      | none => .ok (septetReturn (septetDone s s.tr.w)) := by
  rw [pduText, septetPack_eq ha (le_refl _) hw]
  split <;> rfl

end Sys2Proof.Laws
end

