-- ==== Sys2Proof/Laws/Frame.lean ====
section
/-! SUPPORT. What no part of a running operation changes: everything but OUT[0 .. CAP-1] and the transient registers. One lemma for each
part, composed from those of the primitives. -/

namespace Sys2Proof.Laws

open Sys2Proof.Machine

/-- `s'` differs from `s` at most in the transient registers and in OUT[0 .. CAP-1] (R55). -/
structure Kept (s s' : State) : Prop where
  mode : s'.mode = s.mode
  cfg : s'.cfg = s.cfg
  iface : s'.iface = s.iface
  place : s'.place = s.place
  status : s'.status = s.status
  len : s'.len = s.len
  params : s'.params = s.params
  requests : s'.requests = s.requests
  draws : s'.draws = s.draws
  outside : ∀ a, ¬ s.InOut a → s'.mem.read a = s.mem.read a
  wf : s.mem.wf → s'.mem.wf

theorem Kept.refl (s : State) : Kept s s :=
  ⟨rfl, rfl, rfl, rfl, rfl, rfl, rfl, rfl, rfl, fun _ _ => rfl, id⟩

theorem Kept.inOut {s s' : State} (h : Kept s s') (a : Nat) : s'.InOut a ↔ s.InOut a := by
  simp [State.InOut, h.iface, h.place]

theorem Kept.trans {s s' s'' : State} (h : Kept s s') (g : Kept s' s'') : Kept s s'' where
  mode := g.mode.trans h.mode
  cfg := g.cfg.trans h.cfg
  iface := g.iface.trans h.iface
  place := g.place.trans h.place
  status := g.status.trans h.status
  len := g.len.trans h.len
  params := g.params.trans h.params
  requests := g.requests.trans h.requests
  draws := g.draws.trans h.draws
  outside := fun a ha => (g.outside a (mt (h.inOut a).1 ha)).trans (h.outside a ha)
  wf := g.wf ∘ h.wf

theorem Kept.setTr {s s' : State} (h : Kept s s') (t : Transient) : Kept s (s'.setTr t) :=
  ⟨h.mode, h.cfg, h.iface, h.place, h.status, h.len, h.params, h.requests, h.draws, h.outside, h.wf⟩

/-- A part of an operation that started in `s` keeps what no part changes, whether it goes on or raises. -/
structure KeepsAt (s : State) (r : Run State) : Prop where
  ok : ∀ s', r = .ok s' → Kept s s'
  raised : ∀ e s', r = .error (.raised e s') → Kept s s'

theorem keepsAt_ok {s s' : State} (h : Kept s s') : KeepsAt s (.ok s') :=
  ⟨fun _ e => by injection e with e; exact e ▸ h, fun _ _ e => by injection e⟩

theorem keepsAt_raised {s s' : State} (e : ErrKind) (h : Kept s s') : KeepsAt s (.error (.raised e s')) :=
  ⟨fun _ e => by injection e, fun _ _ e => by injection e with e; injection e with _ e; exact e ▸ h⟩

theorem keepsAt_fault (s : State) (f : Fault) : KeepsAt s (.error (.fault f)) :=
  ⟨fun _ e => by injection e, fun _ _ e => by injection e with e; cases e⟩

/-- One part after another. -/
theorem KeepsAt.bind {s : State} {r : Run State} {g : State → Run State} (hr : KeepsAt s r)
    (hg : ∀ s', Kept s s' → KeepsAt s (g s')) : KeepsAt s (r >>= g) := by
  cases r with
  | ok s' => exact hg s' (hr.ok s' rfl)
  | error e =>
    cases e with
    | raised e s' => exact keepsAt_raised e (hr.raised e s' rfl)
    | fault f => exact keepsAt_fault s f

theorem KeepsAt.of_kept {s s₁ : State} (k : Kept s s₁) {r : Run State} (h : KeepsAt s₁ r) : KeepsAt s r :=
  ⟨fun s' e => k.trans (h.ok s' e), fun e s' h' => k.trans (h.raised e s' h')⟩

/-- A byte is read first. -/
theorem keepsAt_readIn {s s₁ : State} (sp : InSpace) (k : Nat) {g : Byte → Run State} (hg : ∀ c, KeepsAt s (g c)) :
    KeepsAt s (readIn sp k s₁ >>= g) := by
  unfold readIn
  split
  · exact hg _
  · exact keepsAt_fault _ _

/-- The digits are checked first. -/
theorem keepsAt_digitsOk {s s₁ : State} (sp : InSpace) (n : Nat) {g : Bool → Run State} (hg : ∀ c, KeepsAt s (g c)) :
    KeepsAt s (digitsOk sp n s₁ >>= g) := by
  induction n generalizing g with
  | zero => exact hg true
  | succ n ih =>
    rw [digitsOk]
    unfold readIn
    split
    · rw [run_bind_ok]
      have := ih (g := fun rest => g (isDigit (s₁.inByte sp n) && rest)) fun c => hg _
      cases h : digitsOk sp n s₁ with
      | ok r => rw [h] at this; exact this
      | error e => rw [h] at this; exact this
    · exact keepsAt_fault _ _

theorem keepsAt_writeOut (s : State) (k : Nat) (v : Byte) : KeepsAt s (writeOut k v s) := by
  unfold writeOut
  split
  · rename_i h
    refine keepsAt_ok ⟨rfl, rfl, rfl, rfl, rfl, rfl, rfl, rfl, rfl, fun a ha => ?_, fun h => wf_write h _ _⟩
    exact read_write_other _ _ fun e => ha ⟨k, h, e⟩
  · exact keepsAt_fault _ _

theorem keepsAt_setTr (s : State) (t : Transient) : KeepsAt s (.ok (s.setTr t)) := keepsAt_ok ((Kept.refl s).setTr t)

/-- An error check that raises in the state where it stands, or goes on. -/
theorem keepsAt_check (s : State) (e : Option ErrKind) {r : Run State} (h : KeepsAt s r) :
    KeepsAt s (match e with | some e => .error (.raised e s) | none => r) := by
  cases e with
  | some e => exact keepsAt_raised e (.refl s)
  | none => exact h

theorem keepsAt_emit (s : State) (v : Byte) : KeepsAt s (emit v s) := by
  unfold emit
  split
  · exact keepsAt_raised _ (.refl s)
  · exact (keepsAt_writeOut s _ _).bind fun s' k => keepsAt_ok (k.setTr _)

theorem keepsAt_emitAll (vs : List Byte) (s : State) : KeepsAt s (emitAll vs s) := by
  induction vs generalizing s with
  | nil => exact keepsAt_ok (.refl s)
  | cons v vs ih => exact (keepsAt_emit s v).bind fun s' k => (ih s').of_kept k

theorem keepsAt_stageEmit (smsc : Bool) (st : Stage) (s : State) : KeepsAt s (stageEmit smsc st s) := keepsAt_emitAll _ s

theorem keepsAt_addrEnter (src : InSpace) (ndig base capr : Nat) (s : State) : KeepsAt s (addrEnter src ndig base capr s) :=
  keepsAt_digitsOk _ _ fun _ => keepsAt_check s _ (keepsAt_setTr s _)

theorem keepsAt_addrIter (s : State) : KeepsAt s (addrIter s) := by
  refine keepsAt_readIn _ _ fun c => ?_
  have w : ∀ hi : Nibble, KeepsAt s (writeOut (s.tr.base + s.tr.wo) (addrByte (digit c) hi) s >>= fun s₁ =>
      .ok (s₁.setTr { s.tr with wo := s.tr.wo + 1, di := s.tr.di + 2 })) :=
    fun hi => (keepsAt_writeOut s _ _).bind fun s' k => keepsAt_ok (k.setTr _)
  unfold highNibble
  by_cases h : s.tr.di + 1 < s.tr.ndig
  · rw [if_pos h]
    unfold readIn
    split
    · exact w _
    · exact keepsAt_fault _ _
  · rw [if_neg h]
    exact w _

theorem keepsAt_addrLoop (n : Nat) (s : State) : KeepsAt s (addrLoop n s) := by
  induction n generalizing s with
  | zero => exact keepsAt_ok (.refl s)
  | succ n ih =>
    rw [addrLoop]
    split
    · exact (keepsAt_addrIter s).bind fun s' k => (ih s').of_kept k
    · exact keepsAt_ok (.refl s)

theorem keepsAt_addrEncode (src : InSpace) (ndig base capr : Nat) (s : State) :
    KeepsAt s (addrEncode src ndig base capr s) :=
  (keepsAt_addrEnter src ndig base capr s).bind fun s' k => (keepsAt_addrLoop ndig s').of_kept k

theorem keepsAt_septetEnter (base capr : Nat) (s : State) : KeepsAt s (septetEnter base capr s) :=
  keepsAt_check s _ (keepsAt_setTr s _)

theorem keepsAt_septetIter (s : State) : KeepsAt s (septetIter s) :=
  keepsAt_readIn _ _ fun _ => keepsAt_readIn _ _ fun _ =>
    (keepsAt_writeOut s _ _).bind fun _ k => keepsAt_ok (k.setTr _)

theorem keepsAt_septetLoop (n : Nat) (s : State) : KeepsAt s (septetLoop n s) := by
  induction n generalizing s with
  | zero => exact keepsAt_ok (.refl s)
  | succ n ih =>
    rw [septetLoop]
    split
    · exact (keepsAt_septetIter s).bind fun s' k => (ih s').of_kept k
    · exact keepsAt_ok (.refl s)

theorem keepsAt_septetLeftover (s : State) : KeepsAt s (septetLeftover s) := by
  unfold septetLeftover
  split
  · exact keepsAt_readIn _ _ fun _ => (keepsAt_writeOut s _ _).bind fun _ k => keepsAt_ok (k.setTr _)
  · exact keepsAt_ok (.refl s)

theorem keepsAt_septetPack (base capr : Nat) (s : State) : KeepsAt s (septetPack base capr s) :=
  (keepsAt_septetEnter base capr s).bind fun _ k =>
    ((keepsAt_septetLoop _ _).of_kept k).bind fun _ k => (keepsAt_septetLeftover _).of_kept k

theorem keepsAt_pduAddr (src : InSpace) (ndig : Nat) (s : State) : KeepsAt s (pduAddr src ndig s) :=
  (keepsAt_addrEncode _ _ _ _ s).bind fun _ k => keepsAt_ok (k.setTr _)

theorem keepsAt_pduText (s : State) : KeepsAt s (pduText s) :=
  (keepsAt_septetPack _ _ s).bind fun _ k => keepsAt_ok (k.setTr _)

/-! ### The ends of an operation -/

/-- What an operation, once accepted, may change when it has ended: MODE is IDLE, STATUS, LEN and the transient registers are
written, OUT[0 .. CAP-1] may change, one draw has been made (R184, R185). -/
structure Ended (s s' : State) : Prop where
  mode : s'.mode = .idle
  cfg : s'.cfg = s.cfg
  iface : s'.iface = s.iface
  place : s'.place = s.place
  params : s'.params = s.params
  requests : s'.requests = s.requests
  draws : s'.draws = s.draws + 1
  outside : ∀ a, ¬ s.InOut a → s'.mem.read a = s.mem.read a
  wf : s.mem.wf → s'.mem.wf

theorem Kept.finish {s s' : State} (k : Kept s s') (n : Nat) : Ended s (finish n s') where
  mode := rfl
  cfg := k.cfg
  iface := k.iface
  place := k.place
  params := k.params
  requests := k.requests
  draws := congrArg (· + 1) k.draws
  outside := fun a ha => by
    rw [finish_mem, read_fillFree_other, k.outside a ha]
    rw [k.place, k.iface]
    by_contra hc
    exact ha ⟨a - s.place.out, by omega, by omega⟩
  wf := fun h => wf_fillFree _ _ _ _ (k.wf h)

theorem Kept.raiseError {s s' : State} (k : Kept s s') (e : ErrKind) : Ended s (raiseError e s') where
  mode := rfl
  cfg := k.cfg
  iface := k.iface
  place := k.place
  params := k.params
  requests := k.requests
  draws := congrArg (· + 1) k.draws
  outside := fun a ha => by
    rw [raiseError_mem, read_fillFree_other, k.outside a ha]
    rw [k.place, k.iface]
    by_contra hc
    exact ha ⟨a - s.place.out, by omega, by omega⟩
  wf := fun h => wf_fillFree _ _ _ _ (k.wf h)

/-- All that a command can do: it is refused, or it is accepted and its body faults, ends by an error, or ends well. -/
theorem transact_cases (i : Instr) (body : State → Run State) (s : State) :
    (∃ r, refusal? i s = some r ∧ transact i body s = .refused r) ∨
    (s.accepts i ∧ ((∃ f, body (started i s) = .error (.fault f) ∧ transact i body s = .fault f) ∨
      (∃ e s', body (started i s) = .error (.raised e s') ∧ transact i body s = .next (raiseError e s')) ∨
      (∃ s', body (started i s) = .ok s' ∧ transact i body s = .next s'))) := by
  cases h : refusal? i s with
  | some r => exact .inl ⟨r, rfl, transact_of_refusal h⟩
  | none =>
    have ha := refusal?_eq_none.1 h
    refine .inr ⟨ha, ?_⟩
    rw [transact_of_accepts ha]
    cases hb : body (started i s) with
    | ok s' => exact .inr (.inr ⟨s', rfl, rfl⟩)
    | error e =>
      cases e with
      | raised e s' => exact .inr (.inl ⟨e, s', rfl, rfl⟩)
      | fault f => exact .inl ⟨f, rfl, rfl⟩

end Sys2Proof.Laws
end

