-- ==== Sys2Proof/Laws/Step.lean ====
section
/-! SUPPORT. What a step does: one small step where the outside does nothing, else the oldest action at the interface. -/

namespace Sys2Proof.Laws

open Sys2Proof.Machine

theorem step_nil {s : State} (h : s.requests = []) : step s = conclude (microStep s) := by
  rw [step, h]

theorem step_cons {s : State} {r : Request} {rest : List Request} (h : s.requests = r :: rest) :
    step s = serve r (s.setRequests rest) := by
  rw [step, h]

@[simp] theorem microStep_idle {s : State} (h : s.mode = .idle) : microStep s = .ok s := by rw [microStep, h]

theorem microStep_running {s : State} {op : Instr} (h : s.mode = .running op) : microStep s = runStep op s := by
  rw [microStep, h]

@[simp] theorem isRunning_idle : Mode.isRunning .idle = false := rfl

@[simp] theorem isRunning_running (op : Instr) : Mode.isRunning (.running op) = true := rfl

theorem serveIssue_of_decode {b : Byte} {i : Instr} {s : State} (h : decode b = .ok i) :
    serveIssue b s = exec i (s.setCmd b) := by
  rw [serveIssue, h]

theorem inOut_iff {s : State} {a : Nat} : s.inOut a = true ↔ s.InOut a := by
  simp only [State.inOut, State.InOut, Bool.and_eq_true, decide_eq_true_eq]
  constructor
  · rintro ⟨h1, h2⟩
    exact ⟨a - s.place.out, by omega, by omega⟩
  · rintro ⟨k, hk, rfl⟩
    omega

theorem inInputs_iff {s : State} {a : Nat} : s.inInputs a = true ↔ ∃ sp, s.InInput sp a := by
  have one : ∀ sp, (decide (s.inBase sp ≤ a) && decide (a < s.inBase sp + s.inSize sp)) = true ↔ s.InInput sp a := by
    intro sp
    simp only [State.InInput, Bool.and_eq_true, decide_eq_true_eq]
    constructor
    · rintro ⟨h1, h2⟩
      exact ⟨a - s.inBase sp, by omega, by omega⟩
    · rintro ⟨k, hk, rfl⟩
      omega
  simp only [State.inInputs, List.any_cons, List.any_nil, Bool.or_false, Bool.or_eq_true, one]
  constructor
  · rintro (h | h | h)
    · exact ⟨_, h⟩
    · exact ⟨_, h⟩
    · exact ⟨_, h⟩
  · rintro ⟨sp, h⟩
    cases sp
    · exact .inl h
    · exact .inr (.inl h)
    · exact .inr (.inr h)

/-- Every small step keeps what no part of an operation changes, unless it ends the operation. -/
theorem keepsAt_stageAfter_not_done {smsc : Bool} {st : Stage} (h : st ≠ .done) (s : State) :
    KeepsAt s (stageAfter smsc st s) := by
  cases st with
  | smsc =>
    cases smsc
    · exact keepsAt_setTr s _
    · exact keepsAt_addrEnter _ _ _ _ s
  | header => exact keepsAt_setTr s _
  | dest => exact keepsAt_addrEnter _ _ _ _ s
  | consts => exact keepsAt_setTr s _
  | udl => exact keepsAt_setTr s _
  | text => exact keepsAt_septetEnter _ _ s
  | done => exact absurd rfl h

end Sys2Proof.Laws
end

