-- ==== Sys2Proof/Laws/Assembler.lean ====
section
/-! SUPPORT. Running an assembler line's actions from IDLE: what each group of them comes to. -/

namespace Sys2Proof.Laws

open Sys2Proof.Machine

/-- Running one step after another: a run of `m + n` steps is a run of `n` steps from where `m` steps lead. -/
theorem run_add_of_next {m n : Nat} {s t : State} (h : Sys2Proof.core.run m s = .next t) :
    Sys2Proof.core.run (m + n) s = Sys2Proof.core.run n t := by
  induction m generalizing s with
  | zero => cases h; rw [Nat.zero_add]
  | succ m ih =>
    rw [Nat.succ_add]
    simp only [Host.Core.run] at h ⊢
    split at h
    · exact ih h
    · cases h
    · cases h

/-- One step that answers `t`. -/
theorem run_one {s t : State} (h : step s = .next t) : Sys2Proof.core.run 1 s = .next t := by
  have h' : Sys2Proof.core.step s = .next t := h
  simp only [Host.Core.run, h']

/-- Bytes the caller writes one after the other while IDLE. -/
theorem run_storeBytes {s : State} (hm : s.mode = .idle) (a : Nat) (vs : List Byte) (rest : List Request) :
    Sys2Proof.core.run (storeBytes a vs).length (s.setRequests (storeBytes a vs ++ rest)) =
      .next ((s.setRequests rest).setMem (stored s.mem a vs)) := by
  induction vs generalizing s a with
  | nil => rfl
  | cons v vs ih =>
    have h1 : step (s.setRequests (storeBytes a (v :: vs) ++ rest)) =
        .next ((s.setMem (s.mem.write a v)).setRequests (storeBytes (a + 1) vs ++ rest)) := by
      rw [step_cons (r := .memWrite a v) (rest := storeBytes (a + 1) vs ++ rest) rfl]
      simp [serve, serveMemWrite, State.foreign, hm]
      rfl
    have hlen : (storeBytes a (v :: vs)).length = 1 + (storeBytes (a + 1) vs).length := by
      simp [storeBytes, Nat.add_comm]
    rw [hlen, run_add_of_next (run_one h1), ih (s := s.setMem (s.mem.write a v)) hm (a + 1)]
    rfl

/-- The state after an input space is filled and its place and length are set. -/
def given (s : State) (sp : InSpace) (base : Nat) (vs : List Byte) : State :=
  (s.setMem (stored s.mem base vs)).setInput sp base vs.length

section given
variable (s : State) (sp : InSpace) (base : Nat) (vs : List Byte)
@[simp] theorem given_mode : (given s sp base vs).mode = s.mode := by simp [given]
@[simp] theorem given_cfg : (given s sp base vs).cfg = s.cfg := by simp [given]
@[simp] theorem given_status : (given s sp base vs).status = s.status := by simp [given]
@[simp] theorem given_len : (given s sp base vs).len = s.len := by simp [given]
@[simp] theorem given_tr : (given s sp base vs).tr = s.tr := by simp [given]
@[simp] theorem given_params : (given s sp base vs).params = s.params := by simp [given]
@[simp] theorem given_draws : (given s sp base vs).draws = s.draws := by simp [given]
@[simp] theorem given_mem : (given s sp base vs).mem = stored s.mem base vs := by simp [given]
end given

/-- A read after bytes are stored gives one of them, or what it gave before where none of them lies there. -/
theorem read_stored_cases (m : Memory) (a : Nat) (vs : List Byte) (b : Nat) :
    (∃ k, ∃ h : k < vs.length, b = a + k ∧ (stored m a vs).read b = vs[k]) ∨
      ((∀ k, k < vs.length → b ≠ a + k) ∧ (stored m a vs).read b = m.read b) := by
  by_cases h : a ≤ b ∧ b < a + vs.length
  · have hr := read_stored m a vs (k := b - a) (by omega)
    exact .inl ⟨b - a, by omega, by omega, by rwa [show a + (b - a) = b by omega] at hr⟩
  · exact .inr ⟨fun k hk => by omega, read_stored_other _ _ _ (by omega)⟩

/-- Filling an input space makes it hold the bytes. -/
theorem holds_given {s : State} {sp : InSpace} {base : Nat} {vs : List Byte} (h : vs.length < 2 ^ s.params.capW) :
    (given s sp base vs).Holds sp base vs := by
  refine ⟨by simp [given], by simp [given, State.field, Nat.mod_eq_of_lt h], fun k hk => ?_⟩
  rw [State.inByte, given_mem, given, setInput_inBase]
  exact read_stored _ _ _ hk

/-- Filling another input space keeps what one holds, where the bytes agree on what they share. -/
theorem holds_given_other {s : State} {sp q : InSpace} {base b : Nat} {vs ws : List Byte} (hne : q ≠ sp) (h : s.Holds q b ws)
    (ha : Agree b ws base vs) : (given s sp base vs).Holds q b ws := by
  obtain ⟨hb, hs, hr⟩ := h
  have hb' : (given s sp base vs).inBase q = b := by rw [given, setInput_inBase_other _ _ _ _ _ hne, setMem_inBase, hb]
  refine ⟨hb', by rw [given, setInput_inSize_other _ _ _ _ _ hne, setMem_inSize, hs], fun k hk => ?_⟩
  rw [State.inByte, given_mem, hb']
  rcases read_stored_cases s.mem base vs (b + k) with ⟨j, hj, e, hv⟩ | ⟨-, hv⟩
  · rw [hv, ha k hk j hj e]
  · rw [hv, ← hr k hk, State.inByte, hb]

/-- Filling an input space that then holds the bytes changes no byte outside it. -/
theorem read_given_other {s u : State} {sp : InSpace} {base : Nat} {vs : List Byte} (hu : u.Holds sp base vs) {a : Nat}
    (h : ¬ u.InInput sp a) : (given s sp base vs).mem.read a = s.mem.read a := by
  rw [given_mem]
  refine ((read_stored_cases s.mem base vs a).resolve_left ?_).2
  rintro ⟨k, hk, e, -⟩
  exact h ⟨k, by rw [hu.2.1]; exact hk, by rw [hu.1, e]⟩

/-- Filling an input space and setting its length and place, while IDLE. -/
theorem run_giveInput {s : State} (hm : s.mode = .idle) (sp : InSpace) (base : Nat) (vs : List Byte) (rest : List Request) :
    Sys2Proof.core.run (giveInput sp base vs).length (s.setRequests (giveInput sp base vs ++ rest)) =
      .next ((given s sp base vs).setRequests rest) := by
  have h := run_storeBytes hm base vs (.setInput sp base vs.length :: rest)
  have h1 : step ((s.setRequests (.setInput sp base vs.length :: rest)).setMem (stored s.mem base vs)) =
      .next ((given s sp base vs).setRequests rest) := by
    rw [step_cons (r := .setInput sp base vs.length) (rest := rest) rfl]
    cases sp <;> simp [serve, serveOperands, hm] <;> rfl
  rw [giveInput, List.length_append, List.append_assoc, List.singleton_append, run_add_of_next h]
  exact run_one h1

/-- The state in which a line's command runs: OUT is set, the actions are taken, CMD is written. -/
def ready (s : State) (i : Instr) (out cap : Nat) (rest : List Request) : State :=
  ((s.setOut out cap).setRequests rest).setCmd (encode i)

theorem holds_ready {s : State} {i : Instr} {out cap : Nat} {rest : List Request} {sp : InSpace} {b : Nat} {vs : List Byte}
    (h : s.Holds sp b vs) : (ready s i out cap rest).Holds sp b vs := by
  cases sp <;> exact h

/-- Setting OUT and issuing a command, while IDLE. -/
theorem run_issue {s : State} (hm : s.mode = .idle) (i : Instr) (out cap : Nat) (rest : List Request) :
    Sys2Proof.core.run [Request.setOut out cap, .issue (encode i)].length
        (s.setRequests ([Request.setOut out cap, .issue (encode i)] ++ rest)) =
      exec i (ready s i out cap rest) := by
  have h1 : step (s.setRequests ([Request.setOut out cap, .issue (encode i)] ++ rest)) =
      .next ((s.setOut out cap).setRequests (.issue (encode i) :: rest)) := by
    rw [step_cons (r := .setOut out cap) (rest := .issue (encode i) :: rest) rfl]
    simp [serve, serveOperands, hm]
    rfl
  have hd : decode (encode i) = .ok i := by
    cases i with
    | encaddr => rfl
    | pack7 => rfl
    | asmpdu smsc => cases smsc <;> rfl
  have h2 : Sys2Proof.core.step ((s.setOut out cap).setRequests (.issue (encode i) :: rest)) =
      exec i (ready s i out cap rest) := by
    have h := step_cons (s := (s.setOut out cap).setRequests (.issue (encode i) :: rest)) rfl
    exact h.trans (serveIssue_of_decode hd)
  rw [show [Request.setOut out cap, .issue (encode i)].length = 1 + 1 from rfl, run_add_of_next (run_one h1)]
  simp only [Host.Core.run, h2]
  split <;> rename_i h <;> exact h.symm

end Sys2Proof.Laws
end

