-- ==== Sys2Proof/Laws/PerInstr.lean ====
section
/-! SUPPORT. Statements made per command. `TableRow`: the command's byte is selected by exactly one row of the opcode map, the row of
its own mnemonic (30_encoding.md R73). -/

namespace Sys2Proof.Laws.TableRow

open Sys2Proof

/-- Exactly the row of the command's mnemonic selects its byte (R73: the rows are disjoint). -/
def Statement (i : Instr) : Prop := ∀ r ∈ opcodeMap, r.selects (encode i) = true ↔ r.mnemonic = i.mnemonic

theorem encaddr : Statement .encaddr := by unfold Statement; decide

theorem pack7 : Statement .pack7 := by unfold Statement; decide

theorem asmpdu (smsc : Bool) : Statement (.asmpdu smsc) := by unfold Statement; cases smsc <;> decide

end Sys2Proof.Laws.TableRow
end

