-- ==== Sys2Proof/Laws/Small.lean ====
section
/-! SUPPORT. One small step of a running operation whose registers are sequenced (`State.Sequenced`): what each kind of step can do, and
one lemma that says all of it. -/

namespace Sys2Proof.Laws

open Sys2Proof.Machine

/-- What one small step of `op` from a sequenced state comes to: it goes on, still sequenced; or it finishes with a LEN within CAP;
or it raises an error. It does not fault. -/
def StepsWell (op : Instr) (s : State) (r : Run State) : Prop :=
  (∃ s', r = .ok s' ∧ Kept s s' ∧ s'.Sequenced op) ∨ (∃ s' n, r = .ok (finish n s') ∧ Kept s s' ∧ n ≤ s.iface.cap) ∨
  (∃ e s', r = .error (.raised e s') ∧ Kept s s')

/-- Inside AddrEncode with digits left, a turn of the loop goes on (R101). -/
theorem addrIter_of_inAddr {s : State} {sp nd b} (h : s.InAddr sp nd b) (hn : nd ≤ s.inSize sp) (hd : s.tr.di < s.tr.ndig) :
    ∃ s', addrIter s = .ok s' ∧ s'.tr = { s.tr with wo := s.tr.wo + 1, di := s.tr.di + 2 } := by
  obtain ⟨h1, h2, h3, h4, h5, h6⟩ := h
  rw [ceilDiv_two] at *
  unfold addrIter highNibble
  rw [readIn_of_lt (by rw [h1]; omega), run_bind_ok]
  by_cases hx : s.tr.di + 1 < s.tr.ndig
  · rw [if_pos hx, readIn_of_lt (by rw [h1]; omega), run_bind_ok, run_bind_ok, writeOut_of_lt (by omega), run_bind_ok]
    exact ⟨_, rfl, rfl⟩
  · rw [if_neg hx, run_bind_ok, writeOut_of_lt (by omega), run_bind_ok]
    exact ⟨_, rfl, rfl⟩

/-- Inside SeptetPack with a pair left, a step of the main pass goes on (R125). -/
theorem septetIter_of_inSeptets {s : State} {b} (h : s.InSeptets b) (hd : s.tr.i + 1 < s.iface.nt) :
    ∃ s', septetIter s = .ok s' ∧ s'.tr = nextPhase s.tr := by
  obtain ⟨h1, h2, h3, h4, h5, h6⟩ := h
  rw [packedLength_eq] at *
  unfold septetIter
  rw [readIn_of_lt (by simp only [State.inSize]; omega), run_bind_ok, readIn_of_lt (by simp only [State.inSize]; omega), run_bind_ok,
    writeOut_of_lt (by omega), run_bind_ok]
  exact ⟨_, rfl, rfl⟩

/-- A step of the main pass keeps P and I as the bytes written so far say (R33, R127). -/
theorem nextPhase_inSeptets {s s' : State} {b} (h : s.InSeptets b) (hd : s.tr.i + 1 < s.iface.nt) (k : Kept s s') (e : s'.tr = nextPhase s.tr) :
    s'.InSeptets b := by
  obtain ⟨h1, h2, h3, h4, h5, h6⟩ := h
  unfold State.InSeptets
  rw [e, k.iface]
  unfold nextPhase
  split
  · refine ⟨h1, ?_, ?_, ?_, h5, h6⟩
    · show (1:BitVec 3).toNat = (s.tr.o+1) % 7 + 1
      rw [show (1:BitVec 3).toNat = 1 from rfl]; omega
    · show s.tr.i + 2 = (s.tr.o+1) + (s.tr.o+1)/7; omega
    · show s.tr.i + 2 ≤ _; omega
  · refine ⟨h1, ?_, ?_, ?_, h5, h6⟩
    · show (BitVec.ofNat 3 (s.tr.p.toNat + 1)).toNat = (s.tr.o+1) % 7 + 1
      rw [BitVec.toNat_ofNat]; omega
    · show s.tr.i + 1 = (s.tr.o+1) + (s.tr.o+1)/7; omega
    · show s.tr.i + 1 ≤ _; omega

/-- After the main pass, with the leftover, O is L (R130). -/
theorem septetLeftover_of_inSeptets {s : State} {b} (h : s.InSeptets b) (hd : ¬ s.tr.i + 1 < s.iface.nt) :
    ∃ s', septetLeftover s = .ok s' ∧ s'.tr = { s.tr with o := packedLength s.iface.nt } := by
  obtain ⟨h1, h2, h3, h4, h5, h6⟩ := h
  rw [packedLength_eq] at *
  unfold septetLeftover
  by_cases hi : s.tr.i < s.iface.nt
  · rw [if_pos hi, readIn_of_lt (by simp only [State.inSize]; omega), run_bind_ok, writeOut_of_lt (by omega), run_bind_ok]
    refine ⟨_, rfl, ?_⟩
    simp; omega
  · rw [if_neg hi]
    refine ⟨_, rfl, ?_⟩
    have : s.tr.o = (7 * s.iface.nt + 7)/8 := by omega
    rw [← this]

/-- Emitting bytes either raises CapacityError or writes them all within CAP (R151). -/
theorem emitAll_cases {vs : List Byte} {s : State} : (∃ e s', emitAll vs s = .error (.raised e s') ∧ Kept s s') ∨
   (s.tr.w + vs.length ≤ max s.tr.w s.iface.cap ∧ emitAll vs s = .ok (emitted s vs) ∧ Kept s (emitted s vs)) := by
  have K := keepsAt_emitAll vs s
  by_cases h : s.tr.w + vs.length ≤ s.iface.cap
  · rw [emitAll_of_fits vs s h] at *
    exact .inr ⟨by omega, rfl, K.ok _ rfl⟩
  · by_cases hv : vs = []
    · subst hv; exact .inr ⟨by simp, rfl, K.ok _ rfl⟩
    · obtain ⟨s', e, _⟩ := emitAll_of_short vs s hv (by omega)
      exact .inl ⟨_, s', e, K.raised _ _ e⟩

/-- A check point reports a kind, or neither of its conditions holds. -/
theorem pickError_cases (d : Nat) (a b : Bool) (k1 k2 : ErrKind) : (∃ e, pickError d a b k1 k2 = some e) ∨ (a = false ∧ b = false ∧ pickError d a b k1 k2 = none) := by
  cases a <;> cases b <;> simp [pickError]

/-- AddrEncode starts, with what it will write within CAP, or raises (R101). -/
theorem addrEnter_cases {s : State} {sp nd b} (hn : nd ≤ s.inSize sp) (hb : b ≤ s.iface.cap) :
    (∃ e, addrEnter sp nd b (s.iface.cap - b) s = .error (.raised e s)) ∨
    ∃ s', addrEnter sp nd b (s.iface.cap - b) s = .ok s' ∧ Kept s s' ∧ s'.InAddr sp nd b ∧ s'.tr.unit = .addrEncode ∧ s'.tr.w = s.tr.w ∧ s'.tr.stage = s.tr.stage := by
  have K := keepsAt_addrEnter sp nd b (s.iface.cap - b) s
  rw [addrEnter_eq hn] at *
  rcases pickError_cases s.draws (decide (s.iface.cap - b < ceilDiv nd 2)) (!(List.range nd).all fun k => isDigit (s.inByte sp k)) .capacity .format with ⟨e, he⟩ | ⟨h1, h2, h3⟩
  · rw [he]; exact .inl ⟨e, rfl⟩
  · rw [h3]
    refine .inr ⟨_, rfl, K.ok _ (by rw [h3]), ?_, rfl, rfl, rfl⟩
    simp at h1
    refine ⟨rfl, rfl, rfl, rfl, Nat.zero_le _, ?_⟩
    show b + ceilDiv nd 2 ≤ s.iface.cap
    omega

/-- SeptetPack starts, with what it will write within CAP, or raises (R125). -/
theorem septetEnter_cases {s : State} {b} (hb : b ≤ s.iface.cap) :
    (∃ e, septetEnter b (s.iface.cap - b) s = .error (.raised e s)) ∨
    ∃ s', septetEnter b (s.iface.cap - b) s = .ok s' ∧ Kept s s' ∧ s'.InSeptets b ∧ s'.tr.unit = .septetPack ∧ s'.tr.w = s.tr.w ∧ s'.tr.stage = s.tr.stage := by
  have K := keepsAt_septetEnter b (s.iface.cap - b) s
  rw [septetEnter_eq] at *
  rcases pickError_cases s.draws (decide (160 < s.iface.nt)) (decide (s.iface.cap - b < packedLength s.iface.nt)) .length .capacity with ⟨e, he⟩ | ⟨h1, h2, h3⟩
  · rw [he]; exact .inl ⟨e, rfl⟩
  · rw [h3]
    simp at h1 h2
    refine .inr ⟨_, rfl, K.ok _ (by rw [h3]), ⟨rfl, rfl, rfl, Nat.zero_le _, h1, ?_⟩, rfl, rfl, rfl⟩
    show b + packedLength s.iface.nt ≤ s.iface.cap
    omega

/-- All that one small step of a sequenced operation can do. -/
theorem runStep_of_sequenced {op : Instr} {s : State} (h : s.Sequenced op) : StepsWell op s (runStep op s) := by
  unfold runStep
  cases hu : s.tr.unit with
  | idle =>
    simp only [sequenceStep]
    cases op with
    | encaddr =>
      rcases addrEnter_cases (s := s) (sp := .digd) (nd := s.iface.nd) (b := 0) (le_refl _) (Nat.zero_le _) with ⟨e, he⟩ | ⟨s', he, k, ha, u, -, -⟩
      · exact .inr (.inr ⟨e, s, he, .refl s⟩)
      · refine .inl ⟨s', he, k, ?_⟩
        simp only [State.Sequenced, u]; rw [k.iface]; exact ha
    | pack7 =>
      rcases septetEnter_cases (s := s) (b := 0) (Nat.zero_le _) with ⟨e, he⟩ | ⟨s', he, k, ha, u, -, -⟩
      · exact .inr (.inr ⟨e, s, he, .refl s⟩)
      · refine .inl ⟨s', he, k, ?_⟩
        simp only [State.Sequenced, u]; exact ha
    | asmpdu smsc =>
      simp only [State.Sequenced, hu] at h
      obtain ⟨hw, hc⟩ := h
      show StepsWell _ s (emitAll (stageBytes smsc s.tr.stage s) s >>= stageAfter smsc s.tr.stage)
      rcases emitAll_cases (vs := stageBytes smsc s.tr.stage s) (s := s) with ⟨e, s', he, k⟩ | ⟨hfit, he, k⟩
      · rw [he]; exact .inr (.inr ⟨e, s', rfl, k⟩)
      · rw [he, run_bind_ok]
        have hw' : (emitted s (stageBytes smsc s.tr.stage s)).tr.w = s.tr.w + (stageBytes smsc s.tr.stage s).length := rfl
        generalize hz : emitted s (stageBytes smsc s.tr.stage s) = z at *
        have hst : z.tr.stage = s.tr.stage := by rw [← hz]; rfl
        have hun : z.tr.unit = .idle := by rw [← hz]; exact hu
        have hcap : z.tr.w ≤ z.iface.cap := by rw [k.iface, hw']; omega
        have hif := k.iface
        have simple : ∀ st, z.tr.w = z.iface.stageStart smsc st → StepsWell (.asmpdu smsc) s (.ok (z.setStage st)) := by
          intro st hh
          refine .inl ⟨_, rfl, k.setTr _, ?_⟩
          simp only [State.Sequenced, setStage_tr, hun, setStage_iface]
          exact ⟨hh, hcap⟩
        cases hs : s.tr.stage with
        | smsc =>
          rw [hs] at hw hw'
          cases smsc with
          | false =>
            simp only [stageAfter, Bool.false_eq_true, if_false]
            exact simple _ (by rw [hw', hw]; rfl)
          | true =>
            simp only [stageAfter, if_true]
            have hw2 : z.tr.w = 2 := by rw [hw', hw]; rfl
            rcases addrEnter_cases (s := z) (sp := .digs) (nd := z.iface.ns) (b := z.tr.w) (le_refl _) hcap with ⟨e, he⟩ | ⟨s', he, k', ha, u, w, st⟩
            · exact .inr (.inr ⟨e, z, he, k⟩)
            · refine .inl ⟨s', he, k.trans k', ?_⟩
              simp only [State.Sequenced, u]
              refine .inl ⟨trivial, st.trans (hst.trans hs), w.trans hw2, ?_⟩
              rw [w, k'.iface]; exact ha
        | header =>
          rw [hs] at hw hw'
          exact simple _ (by rw [hw', hw, hif]; rfl)
        | dest =>
          rw [hs] at hw hw'
          have hw2 : z.tr.w = z.iface.posA smsc + 4 := by rw [hw', hw, hif]; rfl
          simp only [stageAfter]
          rcases addrEnter_cases (s := z) (sp := .digd) (nd := z.iface.nd) (b := z.tr.w) (le_refl _) hcap with ⟨e, he⟩ | ⟨s', he, k', ha, u, w, st⟩
          · exact .inr (.inr ⟨e, z, he, k⟩)
          · refine .inl ⟨s', he, k.trans k', ?_⟩
            simp only [State.Sequenced, u]
            refine .inr ⟨st.trans (hst.trans hs), ?_, ?_⟩
            · rw [w, hw2, k'.iface]
            · rw [w, k'.iface]; exact ha
        | consts =>
          rw [hs] at hw hw'
          exact simple _ (by rw [hw', hw, hif]; rfl)
        | udl =>
          rw [hs] at hw hw'
          exact simple _ (by rw [hw', hw, hif]; rfl)
        | text =>
          rw [hs] at hw hw'
          have hw2 : z.tr.w = z.iface.posB smsc + 4 := by rw [hw', hw, hif]; rfl
          simp only [stageAfter]
          rcases septetEnter_cases (s := z) (b := z.tr.w) hcap with ⟨e, he⟩ | ⟨s', he, k', ha, u, w, st⟩
          · exact .inr (.inr ⟨e, z, he, k⟩)
          · refine .inl ⟨s', he, k.trans k', ?_⟩
            simp only [State.Sequenced, u]
            refine ⟨st.trans (hst.trans hs), ?_, ?_⟩
            · rw [w, hw2, k'.iface]
            · rw [w]; exact ha
        | done => exact .inr (.inl ⟨z, _, rfl, k, by rw [← hif]; exact hcap⟩)
  | addrEncode =>
    have main : ∀ sp nd b, s.InAddr sp nd b → nd ≤ s.inSize sp → s.tr.di < s.tr.ndig → ∃ s', addrIter s = .ok s' ∧ Kept s s' ∧
        s'.InAddr sp nd b ∧ s'.tr.unit = .addrEncode ∧ s'.tr.w = s.tr.w ∧ s'.tr.stage = s.tr.stage := by
      intro sp nd b ha hn hd
      obtain ⟨s', e, et⟩ := addrIter_of_inAddr ha hn hd
      have k := (keepsAt_addrIter s).ok _ e
      obtain ⟨h1, h2, h3, h4, h5, h6⟩ := ha
      refine ⟨s', e, k, ?_, by rw [et]; exact hu, by rw [et], by rw [et]⟩
      rw [ceilDiv_two] at *
      refine ⟨by rw [et]; exact h1, by rw [et]; exact h2, by rw [et]; exact h3, ?_, ?_, by rw [k.iface]; exact h6⟩
      · rw [et]; show s.tr.di + 2 = 2 * (s.tr.wo + 1); omega
      · rw [et]; show s.tr.wo + 1 ≤ _; rw [ceilDiv_two]; omega
    show StepsWell op s (addrStep op s)
    unfold addrStep
    by_cases hd : s.tr.di < s.tr.ndig
    · rw [if_pos hd]
      cases op with
      | encaddr =>
        simp only [State.Sequenced, hu] at h
        obtain ⟨s', e, k, ha, u, w, st⟩ := main _ _ _ h (le_refl _) hd
        exact .inl ⟨s', e, k, by simp only [State.Sequenced, u]; rw [k.iface]; exact ha⟩
      | pack7 => simp [State.Sequenced, hu] at h
      | asmpdu smsc =>
        simp only [State.Sequenced, hu] at h
        rcases h with ⟨h1, h2, h3, h4⟩ | ⟨h2, h3, h4⟩
        · obtain ⟨s', e, k, ha, u, w, st⟩ := main _ _ _ h4 (le_refl _) hd
          refine .inl ⟨s', e, k, ?_⟩
          simp only [State.Sequenced, u]
          refine .inl ⟨h1, st.trans h2, w.trans h3, ?_⟩
          rw [w, k.iface]; exact ha
        · obtain ⟨s', e, k, ha, u, w, st⟩ := main _ _ _ h4 (le_refl _) hd
          refine .inl ⟨s', e, k, ?_⟩
          simp only [State.Sequenced, u]
          refine .inr ⟨st.trans h2, by rw [w, k.iface]; exact h3, ?_⟩
          rw [w, k.iface]; exact ha
    · rw [if_neg hd]
      cases op with
      | encaddr =>
        simp only [State.Sequenced, hu] at h
        obtain ⟨h1, h2, h3, h4, h5, h6⟩ := h
        exact .inr (.inl ⟨s, _, rfl, .refl s, by omega⟩)
      | pack7 => simp [State.Sequenced, hu] at h
      | asmpdu smsc =>
        simp only [State.Sequenced, hu] at h
        rcases h with ⟨h1, h2, h3, h4⟩ | ⟨h2, h3, h4⟩
        · obtain ⟨g1, g2, g3, g4, g5, g6⟩ := h4
          subst h1
          simp only [addrEnd, h2]
          refine .inl ⟨_, rfl, ((Kept.refl s).setTr _).setTr _, ?_⟩
          simp only [State.Sequenced, setStage_tr, addrReturn, setTr_tr, setStage_iface, setTr_iface, Iface.stageStart, Iface.posA, if_true]
          rw [ceilDiv_two] at *
          constructor <;> omega
        · obtain ⟨g1, g2, g3, g4, g5, g6⟩ := h4
          have : addrEnd (.asmpdu smsc) s = .ok ((addrReturn s).setStage .consts) := by
            simp only [addrEnd, h2]
          rw [this]
          refine .inl ⟨_, rfl, ((Kept.refl s).setTr _).setTr _, ?_⟩
          simp only [State.Sequenced, setStage_tr, addrReturn, setTr_tr, setStage_iface, setTr_iface, Iface.stageStart, Iface.posB]
          rw [ceilDiv_two] at *
          constructor <;> omega
  | septetPack =>
    show StepsWell op s (septetStep op s)
    unfold septetStep
    have main : ∀ b, s.InSeptets b → s.tr.i + 1 < s.iface.nt → ∃ s', septetIter s = .ok s' ∧ Kept s s' ∧
        s'.InSeptets b ∧ s'.tr.unit = .septetPack ∧ s'.tr.w = s.tr.w ∧ s'.tr.stage = s.tr.stage := by
      intro b ha hd
      obtain ⟨s', e, et⟩ := septetIter_of_inSeptets ha hd
      have k := (keepsAt_septetIter s).ok _ e
      refine ⟨s', e, k, nextPhase_inSeptets ha hd k et, ?_, ?_, ?_⟩ <;> rw [et] <;> unfold nextPhase <;> split <;> first | rfl | exact hu
    have fin : ∀ b, s.InSeptets b → ¬ s.tr.i + 1 < s.iface.nt → ∃ s', septetLeftover s = .ok s' ∧ Kept s s' ∧ s'.tr = { s.tr with o := packedLength s.iface.nt } := by
      intro b ha hd
      obtain ⟨s', e, et⟩ := septetLeftover_of_inSeptets ha hd
      exact ⟨s', e, (keepsAt_septetLeftover s).ok _ e, et⟩
    by_cases hd : s.tr.i + 1 < s.iface.nt
    · rw [if_pos hd]
      cases op with
      | encaddr => simp [State.Sequenced, hu] at h
      | pack7 =>
        simp only [State.Sequenced, hu] at h
        obtain ⟨s', e, k, ha, u, w, st⟩ := main _ h hd
        exact .inl ⟨s', e, k, by simp only [State.Sequenced, u]; exact ha⟩
      | asmpdu smsc =>
        simp only [State.Sequenced, hu] at h
        obtain ⟨h1, h2, h3⟩ := h
        obtain ⟨s', e, k, ha, u, w, st⟩ := main _ h3 hd
        refine .inl ⟨s', e, k, ?_⟩
        simp only [State.Sequenced, u]
        exact ⟨st.trans h1, by rw [w, k.iface]; exact h2, by rw [w]; exact ha⟩
    · rw [if_neg hd]
      cases op with
      | encaddr => simp [State.Sequenced, hu] at h
      | pack7 =>
        simp only [State.Sequenced, hu] at h
        obtain ⟨s', e, k, et⟩ := fin _ h hd
        rw [e, run_bind_ok]
        refine .inr (.inl ⟨s', _, rfl, k, ?_⟩)
        rw [et]; have := h.2.2.2.2.2; simp; omega
      | asmpdu smsc =>
        simp only [State.Sequenced, hu] at h
        obtain ⟨h1, h2, h3⟩ := h
        obtain ⟨s', e, k, et⟩ := fin _ h3 hd
        rw [e, run_bind_ok]
        have : septetEnd (.asmpdu smsc) s' = .ok ((septetReturn s').setStage .done) := by
          simp only [septetEnd, et, h1]
        rw [this]
        refine .inl ⟨_, rfl, (k.setTr _).setTr _, ?_⟩
        simp only [State.Sequenced, setStage_tr, septetReturn, setTr_tr, setStage_iface, setTr_iface, Iface.stageStart, Iface.posT, et]
        rw [k.iface]
        have := h3.2.2.2.2.2
        constructor <;> omega

end Sys2Proof.Laws
end

