-- ==== Sys2Proof/Tests/Slice0.lean ====
section
/-! SUPPORT. Tests: the encodings written out from 30_encoding.md R70 and R73, the checks of WellFormed, vectors of 95_test_vectors.md, and for
each statement with hypotheses a state that meets them. -/

namespace Sys2Proof.Tests

open Sys2Proof Sys2Proof.Machine Sys2Proof.Laws

/-! ### Helpers -/

/-- Bytes as memory cells from an address on. -/
def cellsAt : Nat → List Byte → Memory
  | _, [] => []
  | a, v :: vs => (a, v) :: cellsAt (a + 1) vs

/-- An IDLE state with the given operands: DIGS at 100, DIGD at 200, TXT at 300, OUT at 600. -/
def demo (cap : Nat) (sm d t : List Byte) : State :=
  { State.reset with
    mem := cellsAt 100 sm ++ cellsAt 200 d ++ cellsAt 300 t
    iface := { cmd := 0, ns := sm.length, nd := d.length, nt := t.length, cap := cap }
    place := { digs := 100, digd := 200, txt := 300, out := 600 } }

/-- The same with other lengths: bytes that are not listed are the caller's all the same. -/
def sized (s : State) (ns nd nt : Nat) : State := { s with iface := { s.iface with ns := ns, nd := nd, nt := nt } }

/-- The outcome is a next state of which `p` holds. -/
def ends (o : Host.Outcome State Fault Refusal) (p : State → Bool) : Bool :=
  match o with
  | .next t => p t
  | _ => false

/-- The outcome is OK with exactly these bytes. -/
def gives (o : Host.Outcome State Fault Refusal) (bytes : List Byte) : Bool :=
  ends o fun t => t.status == .ok && t.len == bytes.length && (List.range t.len).map t.outByte == bytes

/-- The outcome is a next state with this STATUS. -/
def reports (o : Host.Outcome State Fault Refusal) (st : Status) : Bool := ends o fun t => t.status == st

/-- The outcome is this refusal. -/
def refuses (o : Host.Outcome State Fault Refusal) (r : Refusal) : Bool :=
  match o with
  | .refused q => q == r
  | _ => false

theorem exists_of_ends {o : Host.Outcome State Fault Refusal} {p : State → Bool} (h : ends o p = true) :
    ∃ t, o = .next t ∧ p t = true := by
  cases o with
  | next t => exact ⟨t, rfl, h⟩
  | fault f => cases h
  | refused r => cases h

theorem exists_of_reports {o : Host.Outcome State Fault Refusal} {st : Status} (h : reports o st = true) :
    ∃ t, o = .next t ∧ t.status = st := by
  obtain ⟨t, ht, hs⟩ := exists_of_ends h
  exact ⟨t, ht, by simpa using hs⟩

theorem accepts_of {i : Instr} {s : State} (h : refusal? i s = none) : s.accepts i := refusal?_eq_none.1 h

/-! ### Decoding: command bytes written out from the field layout RSV, S, OP (R70) -/

theorem test_decode_encaddr : decode 0b00000_0_01#8 = .ok .encaddr := by decide
theorem test_decode_pack7 : decode 0b00000_0_10#8 = .ok .pack7 := by decide
theorem test_decode_asmpdu_without_smsc : decode 0b00000_0_11#8 = .ok (.asmpdu false) := by decide
theorem test_decode_asmpdu_with_smsc : decode 0b00000_1_11#8 = .ok (.asmpdu true) := by decide
/-- L2-E5, L2-E8. -/
theorem test_decode_op_zero : decode 0x00 = .error .opZero ∧ decode 0x04 = .error .opZero := by decide
/-- L2-E6, L2-E7. -/
theorem test_decode_smsc_bit : decode 0x05 = .error .smscBit ∧ decode 0x06 = .error .smscBit := by decide
/-- L2-E9, L2-E10. -/
theorem test_decode_rsv : decode 0x0B = .error .rsvBits ∧ decode 0x83 = .error .rsvBits := by decide
theorem test_table_words : decodeTableWord 8 1 = some .encaddr ∧ decodeTableWord 8 2 = some .pack7 ∧
    decodeTableWord 8 3 = some (.asmpdu false) ∧ decodeTableWord 8 7 = some (.asmpdu true) := by decide

/-! ### WellFormed: an ill-formed term for each check -/

theorem test_wf_refuses_op_zero : CmdFields.wf { op := 0b00, smsc := false, rsv := 0 } = false := by decide
theorem test_wf_refuses_smsc_on_pack7 : CmdFields.wf { op := 0b10, smsc := true, rsv := 0 } = false := by decide
theorem test_wf_refuses_rsv : CmdFields.wf { op := 0b11, smsc := true, rsv := 0b00001 } = false := by decide
theorem test_memory_wf_refuses_order : ¬ Memory.wf [(5, 1), (4, 1)] := by decide
theorem test_memory_wf_refuses_unlisted : ¬ Memory.wf [(5, 0x00)] := by decide
theorem test_params_wf_refuses_digits : ¬ Params.wf { maxDigits := 256, capW := 8 } := by decide
theorem test_params_wf_refuses_width : ¬ Params.wf { maxDigits := 20, capW := 7 } := by decide

/-! ### Vectors of 95_test_vectors.md -/

/-- L1-2: ENCADDR cap=2, d="123". -/
theorem test_encaddr_odd : gives (exec .encaddr (demo 2 [] [0x31, 0x32, 0x33] [])) [0x21, 0xF3] = true := by decide
/-- L2-A11: ENCADDR cap=1, d=[0xB1]: bit 7 of a digit is not masked. -/
theorem test_encaddr_bit_seven : reports (exec .encaddr (demo 1 [] [0xB1] [])) .formatError = true := by decide
/-- L2-P6: PACK7 cap=8, t="ABCDEFGHI": the skip, then a leftover at P = 1. -/
theorem test_pack7_skip :
    gives (exec .pack7 (demo 8 [] [] [0x41, 0x42, 0x43, 0x44, 0x45, 0x46, 0x47, 0x48, 0x49]))
      [0x41, 0xE1, 0x90, 0x58, 0x34, 0x1E, 0x91, 0x49] = true := by decide +kernel
/-- L2-P9: PACK7 cap=2, t=[0xC1, 0xC2]: bit 7 of a character is masked. -/
theorem test_pack7_bit_seven : gives (exec .pack7 (demo 2 [] [] [0xC1, 0xC2])) [0x41, 0x21] = true := by decide
/-- L2-M5: ASMPDU cap=23, s="123", d="4567", t="hellohello". -/
theorem test_asmpdu_smsc :
    gives (exec (.asmpdu true) (demo 23 [0x31, 0x32, 0x33] [0x34, 0x35, 0x36, 0x37]
      [0x68, 0x65, 0x6C, 0x6C, 0x6F, 0x68, 0x65, 0x6C, 0x6C, 0x6F]))
      [0x03, 0x91, 0x21, 0xF3, 0x11, 0x00, 0x04, 0x91, 0x54, 0x76, 0x00, 0x00, 0xB0, 0x0A, 0xE8, 0x32, 0x9B, 0xFD, 0x46, 0x97,
        0xD9, 0xEC, 0x37] = true := by decide +kernel
/-- L2-M8: ASMPDU cap=200, d="12a4", 161 characters: stage 3 raises before stage 6. -/
theorem test_asmpdu_stage_order :
    reports (exec (.asmpdu false) (sized (demo 200 [] [0x31, 0x32, 0x61, 0x34] []) 0 4 161)) .formatError = true := by
  decide
/-- L2-A6: a digit string of MAX_DIGITS + 1 is refused. -/
theorem test_refused_long_digits :
    refuses (exec .encaddr (sized (demo 11 [] [] []) 0 21 0)) .digitStringTooLong = true := by decide
/-- R201, L3-2: a reset while RUNNING ends in IDLE with the reset configuration. -/
theorem test_reset_while_running :
    ends (step { demo 2 [] [0x31] [] with mode := .running .encaddr, cfg := { CfgRegs.reset with toa := 0x81 }, requests := [.reset] })
      (fun t => t.mode == .idle && t.cfg.toa == 0x91) = true := by decide
/-- The first command after reset runs: its operands are all empty. -/
theorem test_first_step : gives (step (State.reset.withFetchWord 8 2)) [] = true := by decide

/-- R187: another agent's read of the last byte of TXT, and of the byte after it, while PACK7 runs. -/
theorem test_foreign_read :
    refuses (step { demo 8 [] [] [0x41] with mode := .running .pack7, requests := [.memRead 300] }) .foreignAccess = true ∧
    ends (step { demo 8 [] [] [0x41] with mode := .running .pack7, requests := [.memRead 301] }) (fun _ => true) = true := by decide

/-- R75: the line of L1-6, with its comment. -/
theorem test_readLine :
    readLine "ASMPDU cap=13, d=\"1234\", t=[0x41, 66] ; CMD 0x03".toList =
      some (.asmpdu 13 none [0x31, 0x32, 0x33, 0x34] [0x41, 0x42]) := by decide +kernel
/-- R75: the configuration write of L2-M15. -/
theorem test_readLine_cfg : readLine "CFG_TOA := 0x81".toList = some (.cfg .toa 0x81) := by decide +kernel

/-! ### States that meet the hypotheses of the statements -/

theorem witness_ReservedCommandsAreRefused :
    ∃ (s : State) (b : Byte) (rest : List Request), b ≠ 0x01 ∧ b ≠ 0x02 ∧ b ≠ 0x03 ∧ b ≠ 0x07 ∧
      s.requests = .issue b :: rest :=
  ⟨State.reset.setRequests [.issue 0x05], 0x05, [], by decide⟩

theorem witness_ReservedCommandsAreRefused_noWait :
    ∃ (s : State) (b : Byte) (rest : List Request), b ≠ 0x01 ∧ b ≠ 0x02 ∧ b ≠ 0x03 ∧ b ≠ 0x07 ∧
      s.requests = .issueNoWait b :: rest :=
  ⟨State.reset.setRequests [.issueNoWait 0x08], 0x08, [], by decide⟩

theorem witness_StepRunsTheDecodedCommand :
    ∃ (s : State) (b : Byte) (i : Instr) (rest : List Request), s.requests = .issue b :: rest ∧ decode b = .ok i :=
  ⟨State.reset.setRequests [.issue 0x07], 0x07, .asmpdu true, [], by decide⟩

theorem witness_StepRunsTheDecodedCommand_word : decodeTableWord 8 1 = some .encaddr := by decide

theorem witness_IdleBlockWaits : State.reset.mode = .idle ∧ State.reset.requests = [] := by decide

theorem witness_IdleBlockWaits_tick :
    (State.reset.setRequests [.tick]).mode = .idle ∧ (State.reset.setRequests [.tick]).requests = [.tick] := by decide

/-- RUNNING(PACK7) inside the main pass after six bytes: P = 7, I = 6, O = 6; TXT is nine bytes. -/
def inPass : State :=
  { demo 8 [] [] [0x41, 0x42, 0x43, 0x44, 0x45, 0x46, 0x47, 0x48, 0x49] with
    mode := .running .pack7
    iface := { cmd := 0x02, ns := 0, nd := 0, nt := 9, cap := 8 }
    tr := { State.reset.tr with p := 7, i := 6, o := 6, unit := .septetPack } }

/-- RUNNING(ASMPDU), S = 0, at the start of stage 1. -/
def inStageOne : State :=
  { demo 13 [] [0x31, 0x32, 0x33, 0x34] [0x41, 0x42] with
    mode := .running (.asmpdu false)
    iface := { cmd := 0x03, ns := 0, nd := 4, nt := 2, cap := 13 } }

theorem inPass_inv : inPass.Inv :=
  ⟨by decide, by decide, by unfold State.FieldsFit; decide, by decide, by unfold State.DigitsFit; trivial,
    outOverlaps_eq_false.1 (by decide), by show inPass.InSeptets 0; unfold State.InSeptets; decide⟩

theorem inStageOne_inv : inStageOne.Inv :=
  ⟨by decide, by decide, by unfold State.FieldsFit; decide, by decide, by unfold State.DigitsFit; decide,
    outOverlaps_eq_false.1 (by decide),
    (by decide : inStageOne.tr.w = inStageOne.iface.stageStart false inStageOne.tr.stage ∧ inStageOne.tr.w ≤ inStageOne.iface.cap)⟩

theorem witness_BlockResetLeaves :
    ∃ (s : State) (rest : List Request), s.requests = .reset :: rest ∧ s.mode ≠ .idle :=
  ⟨inPass.setRequests [.reset], [], by decide⟩

theorem witness_BlockResetLeaves_idle :
    ∃ (s : State) (rest : List Request), s.requests = .reset :: rest ∧ s.mode = .idle :=
  ⟨State.reset.setRequests [.reset], [], by decide⟩

theorem witness_InvKeptByEveryStep : ∃ s t : State, s.Inv ∧ step s = .next t := by
  obtain ⟨t, ht, -⟩ := exists_of_ends (o := step inPass) (p := fun _ => true) (by decide)
  exact ⟨inPass, t, inPass_inv, ht⟩

theorem witness_InvStepNeverFaults : ∃ s : State, s.Inv ∧ s.mode = .running (.asmpdu false) :=
  ⟨inStageOne, inStageOne_inv, rfl⟩

theorem witness_CommandWhileRunningIsRefused :
    ∃ (s : State) (op i : Instr) (rest : List Request), s.mode = .running op ∧ s.requests = .issue (encode i) :: rest :=
  ⟨inPass.setRequests [.issue (encode .encaddr)], .pack7, .encaddr, [], by decide⟩

theorem witness_CommandWhileRunningIsRefused_noWait :
    ∃ (s : State) (op i : Instr) (rest : List Request), s.mode = .running op ∧ s.requests = .issueNoWait (encode i) :: rest :=
  ⟨inPass.setRequests [.issueNoWait (encode .pack7)], .pack7, .pack7, [], by decide⟩

/-- ND = MAX_DIGITS + 1. -/
theorem witness_LongDigitStringIsRefused : ∃ s : State, s.mode = .idle ∧ s.params.maxDigits + 1 = s.iface.nd :=
  ⟨sized (demo 11 [] [] []) 0 21 0, by decide⟩

/-- NS = MAX_DIGITS + 1, and ND = MAX_DIGITS. -/
theorem witness_LongDigitStringIsRefused_smsc :
    ∃ s : State, s.mode = .idle ∧ s.params.maxDigits + 1 = s.iface.ns ∧ s.iface.nd = s.params.maxDigits :=
  ⟨sized (demo 11 [] [] []) 21 20 0, by decide⟩

/-- The last byte of OUT is the first byte of DIGD. -/
theorem witness_OverlapWithOutIsRefused :
    ∃ (s : State) (i : Instr) (sp : InSpace) (a : Nat), s.mode = .idle ∧ s.InOut a ∧ s.InInput sp a ∧ s.DigitsFit i :=
  ⟨{ demo 1 [] [0x31] [] with place := { digs := 100, digd := 200, txt := 300, out := 200 } }, .encaddr, .digd, 200, rfl,
    ⟨0, by decide, rfl⟩, ⟨0, by decide, rfl⟩, by unfold State.DigitsFit; decide⟩

/-- DIGD and TXT are the same bytes. -/
theorem witness_OverlapWithOutIsRefused_inputs :
    ∃ (s : State) (i : Instr), s.mode = .idle ∧ s.DigitsFit i ∧ (∀ sp a, ¬ (s.InOut a ∧ s.InInput sp a)) ∧
      s.place.digd = s.place.txt ∧ 0 < s.iface.nd ∧ 0 < s.iface.nt :=
  ⟨sized { demo 10 [] [0x31] [] with place := { digs := 100, digd := 200, txt := 200, out := 600 } } 0 1 1, .asmpdu false, rfl,
    by unfold State.DigitsFit; decide, fun sp a ⟨⟨k, hk, e⟩, ⟨j, hj, e'⟩⟩ =>
      outOverlaps_eq_false.1 (by decide) sp k j hk hj (e.symm.trans e'), rfl, by decide, by decide⟩

theorem witness_AcceptedCommandEnds : ∃ (i : Instr) (s : State), s.accepts i := ⟨.pack7, State.reset, accepts_of (by decide)⟩

theorem witness_AcceptedCommandEnds_refused : ∃ (i : Instr) (s : State), ¬ s.accepts i :=
  ⟨.pack7, inPass, fun h => absurd (refusal?_eq_none.2 h) (by decide)⟩

/-- Three digits, capacity exactly two bytes: a pair and a padded digit. -/
theorem witness_EncAddrWritesSemiOctets :
    ∃ s : State, s.accepts .encaddr ∧ s.DigitString .digd s.iface.nd ∧ ceilDiv s.iface.nd 2 ≤ s.iface.cap ∧
      2 * 0 + 1 < s.iface.nd ∧ s.iface.nd % 2 = 1 :=
  ⟨demo 2 [] [0x31, 0x32, 0x33] [], accepts_of (by decide), by unfold State.DigitString; decide, by decide, by decide, by decide⟩

theorem witness_EncAddrNibbleRange :
    ∃ s : State, s.accepts .encaddr ∧ s.DigitString .digd s.iface.nd ∧ ceilDiv s.iface.nd 2 ≤ s.iface.cap ∧ 0 < s.iface.nd :=
  ⟨demo 1 [] [0x35] [], accepts_of (by decide), by unfold State.DigitString; decide, by decide, by decide⟩

/-- "12x" with no capacity: both conditions of one check hold. -/
theorem witness_EncAddrErrors :
    ∃ s : State, s.accepts .encaddr ∧ s.iface.cap < ceilDiv s.iface.nd 2 ∧ ¬ s.DigitString .digd s.iface.nd :=
  ⟨demo 0 [] [0x31, 0x32, 0x78] [], accepts_of (by decide), by decide, by unfold State.DigitString; decide⟩

/-- 160 characters, the most there are, in exactly 140 bytes. -/
theorem witness_Pack7IsTheBitStream :
    ∃ s : State, s.accepts .pack7 ∧ s.iface.nt ≤ 160 ∧ packedLength s.iface.nt ≤ s.iface.cap ∧ s.iface.nt = 160 :=
  ⟨sized (demo 140 [] [] []) 0 0 160, accepts_of (by decide), by decide⟩

theorem witness_Pack7WritesByPhase :
    ∃ s : State, s.accepts .pack7 ∧ s.iface.nt ≤ 160 ∧ packedLength s.iface.nt ≤ s.iface.cap ∧ s.iface.nt = 7 :=
  ⟨demo 7 [] [] [0x41, 0x42, 0x43, 0x44, 0x45, 0x46, 0x47], accepts_of (by decide), by decide⟩

/-- 161 characters and no capacity: both conditions of one check hold. -/
theorem witness_Pack7Errors :
    ∃ s : State, s.accepts .pack7 ∧ 160 < s.iface.nt ∧ s.iface.cap < ceilDiv (7 * s.iface.nt) 8 :=
  ⟨sized (demo 0 [] [] []) 0 0 161, accepts_of (by decide), by decide⟩

/-- "A" against 0xC1. -/
theorem witness_Pack7IgnoresBitSeven :
    ∃ (s : State) (m : Memory), s.accepts .pack7 ∧ m ≠ s.mem ∧
      ∀ j, j < s.iface.nt → (s.inByte .txt j).toNat % 128 = ((s.setMem m).inByte .txt j).toNat % 128 :=
  ⟨demo 1 [] [] [0x41], [(300, 0xC1)], accepts_of (by decide), by decide, by decide⟩

/-- 161 characters that would fit: only LengthError applies. -/
theorem witness_Pack7IgnoresBitSeven_oneKind :
    ∃ (s : State) (m : Memory), s.accepts .pack7 ∧ m ≠ s.mem ∧
      (∀ j, j < s.iface.nt → (s.inByte .txt j).toNat % 128 = ((s.setMem m).inByte .txt j).toNat % 128) ∧
      160 < s.iface.nt ∧ ¬ (160 < s.iface.nt ∧ s.iface.cap < ceilDiv (7 * s.iface.nt) 8) :=
  ⟨sized (demo 141 [] [] []) 0 0 161, [(300, 0x80)], accepts_of (by decide), by decide, by decide +kernel, by decide, by decide⟩

/-- "1234" and "AB" in exactly 13 bytes, without an SMSC. -/
theorem witness_AsmPduWritesTheLayout :
    ∃ s : State, s.accepts (.asmpdu false) ∧ s.DigitString .digd s.iface.nd ∧ s.iface.nt ≤ 160 ∧
      s.iface.posT false ≤ s.iface.cap ∧ s.params.wf :=
  ⟨demo 13 [] [0x31, 0x32, 0x33, 0x34] [0x41, 0x42], accepts_of (by decide), by unfold State.DigitString; decide, by decide,
    by decide, by decide⟩

/-- With an SMSC: "4479", "01" and "Test" in exactly 17 bytes (L3-4 step 3). -/
theorem witness_AsmPduWritesTheLayout_smsc :
    ∃ s : State, s.accepts (.asmpdu true) ∧ s.DigitString .digs s.iface.ns ∧ s.DigitString .digd s.iface.nd ∧
      s.iface.nt ≤ 160 ∧ s.iface.posT true ≤ s.iface.cap ∧ s.params.wf :=
  ⟨demo 17 [0x34, 0x34, 0x37, 0x39] [0x30, 0x31] [0x54, 0x65, 0x73, 0x74], accepts_of (by decide),
    by unfold State.DigitString; decide, by unfold State.DigitString; decide, by decide, by decide, by decide⟩

theorem witness_AsmPduReportsTheEarliestStage :
    ∃ (smsc : Bool) (s : State), s.accepts (.asmpdu smsc) ∧ s.pduErrors smsc = [] :=
  ⟨false, demo 13 [] [0x31, 0x32, 0x33, 0x34] [0x41, 0x42], accepts_of (by decide), by decide⟩

/-- L2-M10: both conditions of the one AddrEncode call of stage 3 hold. -/
theorem witness_AsmPduReportsTheEarliestStage_errors :
    ∃ (smsc : Bool) (s : State), s.accepts (.asmpdu smsc) ∧ s.pduErrors smsc = [.capacity, .format] :=
  ⟨false, demo 6 [] [0x31, 0x32, 0x61, 0x34] [0x41, 0x42], accepts_of (by decide), by decide⟩

/-- One byte short (L1-8). -/
theorem witness_AsmPduExactCapacity :
    ∃ s : State, s.accepts (.asmpdu false) ∧ s.DigitString .digd s.iface.nd ∧ s.iface.nt ≤ 160 ∧
      s.iface.cap + 1 = s.iface.posT false :=
  ⟨demo 12 [] [0x31, 0x32, 0x33, 0x34] [0x41, 0x42], accepts_of (by decide), by unfold State.DigitString; decide, by decide,
    by decide⟩

theorem witness_AsmPduBlamesTheRightOperand :
    ∃ s t : State, exec (.asmpdu false) s = .next t ∧ t.status = .formatError :=
  ⟨_, exists_of_reports (o := exec (.asmpdu false) (demo 200 [] [0x2B] [])) (by decide)⟩

theorem witness_AsmPduBlamesTheRightOperand_length :
    ∃ s t : State, exec (.asmpdu false) s = .next t ∧ t.status = .lengthError :=
  ⟨_, exists_of_reports (o := exec (.asmpdu false) (sized (demo 200 [] [] []) 0 0 161)) (by decide)⟩

theorem witness_ErrorLeaves : ∃ (i : Instr) (s t : State), exec i s = .next t ∧ t.status ≠ .ok := by
  obtain ⟨t, ht, hs⟩ := exists_of_reports (o := exec .encaddr (demo 0 [] [0x31] [])) (st := .capacityError) (by decide)
  exact ⟨_, _, t, ht, by rw [hs]; decide⟩

theorem witness_SuccessLeaves : ∃ (i : Instr) (s t : State), exec i s = .next t ∧ t.status = .ok :=
  ⟨.pack7, _, exists_of_reports (o := exec .pack7 (demo 1 [] [] [0x41])) (by decide)⟩

theorem witness_SmallStepFrame :
    ∃ s t : State, s.requests = [] ∧ step s = .next t ∧ t.mode = s.mode := by
  obtain ⟨t, ht, hm⟩ := exists_of_ends (o := step inPass) (p := fun t => t.mode == .running .pack7) (by decide)
  exact ⟨inPass, t, rfl, ht, (by simpa using hm : t.mode = .running .pack7)⟩

theorem witness_SmallStepFrame_tick :
    ∃ (s t : State) (rest : List Request), s.requests = .tick :: rest ∧ step s = .next t := by
  obtain ⟨t, ht, -⟩ := exists_of_ends (o := step (inPass.setRequests [.tick])) (p := fun _ => true) (by decide)
  exact ⟨_, t, [], rfl, ht⟩

theorem witness_ResultLengthBounds : ∃ s t : State, t.status = .ok ∧ exec .encaddr s = .next t := by
  obtain ⟨t, ht, hs⟩ := exists_of_reports (o := exec .encaddr (demo 1 [] [0x31] [])) (st := .ok) (by decide)
  exact ⟨_, t, hs, ht⟩

theorem witness_ResultLengthBounds_pack7 : ∃ s t : State, t.status = .ok ∧ exec .pack7 s = .next t := by
  obtain ⟨t, ht, hs⟩ := exists_of_reports (o := exec .pack7 (demo 1 [] [] [0x41])) (st := .ok) (by decide)
  exact ⟨_, t, hs, ht⟩

theorem witness_ResultLengthBounds_asmpdu : ∃ s t : State, t.status = .ok ∧ exec (.asmpdu true) s = .next t := by
  obtain ⟨t, ht, hs⟩ := exists_of_reports (o := exec (.asmpdu true) (demo 10 [] [] [])) (st := .ok) (by decide)
  exact ⟨_, t, hs, ht⟩

/-- Two states that differ in DIGS, TXT, STATUS and memory, and agree on what ENCADDR reads. -/
theorem witness_ResultDependsOnOperandsOnly :
    ∃ (s s' t : State), s.accepts .encaddr ∧ s'.accepts .encaddr ∧ s.iface.cap = s'.iface.cap ∧
      (∀ sp ∈ reads .encaddr, s.inSize sp = s'.inSize sp ∧ ∀ k, k < s.inSize sp → s.inByte sp k = s'.inByte sp k) ∧
      exec .encaddr s = .next t ∧ t.status = .ok ∧ s ≠ s' := by
  obtain ⟨t, ht, hs⟩ := exists_of_reports (o := exec .encaddr (demo 1 [] [0x31] [])) (st := .ok) (by decide)
  refine ⟨demo 1 [] [0x31] [], demo 1 [0x39] [0x31] [0x41], t, accepts_of (by decide), accepts_of (by decide), rfl, ?_, ht, hs,
    by decide⟩
  intro sp h
  obtain rfl : sp = .digd := by simpa [reads] using h
  exact ⟨rfl, by decide⟩

/-- One condition holds, and the numbers of draws differ. -/
theorem witness_ResultDependsOnOperandsOnly_error :
    ∃ s s' t : State, s.accepts .encaddr ∧ s'.accepts .encaddr ∧ s.iface.cap = s'.iface.cap ∧
      (∀ sp ∈ reads .encaddr, s.inSize sp = s'.inSize sp ∧ ∀ k, k < s.inSize sp → s.inByte sp k = s'.inByte sp k) ∧
      exec .encaddr s = .next t ∧ s.errors .encaddr = [.capacity] ∧ s.draws ≠ s'.draws := by
  obtain ⟨t, ht, -⟩ := exists_of_reports (o := exec .encaddr (demo 0 [] [0x31] [])) (st := .capacityError) (by decide)
  refine ⟨demo 0 [] [0x31] [], { demo 0 [] [0x31] [] with draws := 5 }, t, accepts_of (by decide), accepts_of (by decide), rfl, ?_,
    ht, by decide, by decide⟩
  intro sp h
  obtain rfl : sp = .digd := by simpa [reads] using h
  exact ⟨rfl, by decide⟩

/-- The same for ASMPDU without an SMSC, which reads the configuration too and ignores DIGS. -/
theorem witness_ResultDependsOnOperandsOnly_asmpdu :
    ∃ (s s' t : State), s.accepts (.asmpdu false) ∧ s'.accepts (.asmpdu false) ∧ s.iface.cap = s'.iface.cap ∧ s.cfg = s'.cfg ∧
      (∀ sp ∈ reads (.asmpdu false), s.inSize sp = s'.inSize sp ∧ ∀ k, k < s.inSize sp → s.inByte sp k = s'.inByte sp k) ∧
      exec (.asmpdu false) s = .next t ∧ t.status = .ok ∧ s ≠ s' := by
  obtain ⟨t, ht, hs⟩ := exists_of_reports (o := exec (.asmpdu false) (demo 11 [] [0x31] [0x41])) (st := .ok) (by decide)
  refine ⟨demo 11 [] [0x31] [0x41], demo 11 [0x39] [0x31] [0x41], t, accepts_of (by decide), accepts_of (by decide), rfl, rfl, ?_,
    ht, hs, by decide⟩
  intro sp h
  rcases (by simpa [reads] using h : sp = .digd ∨ sp = .txt) with rfl | rfl
  · exact ⟨rfl, by decide⟩
  · exact ⟨rfl, by decide⟩

theorem witness_ConfigWriteReadsBack :
    ∃ (s : State) (r : CfgReg) (v : Byte) (rest : List Request), s.mode = .idle ∧ s.requests = .cfgWrite r v :: rest :=
  ⟨State.reset.setRequests [.cfgWrite .toa 0x81], .toa, 0x81, [], by decide⟩

theorem witness_ConfigWriteWhileRunningIsRefused :
    ∃ (s : State) (op : Instr) (r : CfgReg) (v : Byte) (rest : List Request),
      s.mode = .running op ∧ s.requests = .cfgWrite r v :: rest :=
  ⟨inPass.setRequests [.cfgWrite .vp 0xA7], .pack7, .vp, 0xA7, [], by decide⟩

/-- The last byte of OUT, read and written. -/
theorem witness_ForeignAccessIsRefused :
    ∃ (s s' : State) (op : Instr) (a : Nat) (v : Byte) (rest : List Request), s.mode = .running op ∧ s'.mode = .running op ∧
      s.InOut a ∧ s'.InOut a ∧ s.requests = .memRead a :: rest ∧ s'.requests = .memWrite a v :: rest :=
  ⟨inPass.setRequests [.memRead 607], inPass.setRequests [.memWrite 607 1], .pack7, 607, 1, [], rfl, rfl, ⟨7, by decide, rfl⟩,
    ⟨7, by decide, rfl⟩, rfl, rfl⟩

/-- The last byte of TXT, written. -/
theorem witness_ForeignAccessIsRefused_input :
    ∃ (s : State) (op : Instr) (a : Nat) (v : Byte) (sp : InSpace) (rest : List Request),
      s.mode = .running op ∧ s.InInput sp a ∧ s.requests = .memWrite a v :: rest :=
  ⟨inPass.setRequests [.memWrite 308 1], .pack7, 308, 1, .txt, [], rfl, ⟨8, by decide, rfl⟩, rfl⟩

theorem witness_CallerWriteIsSeen :
    ∃ (s : State) (a : Nat) (v : Byte) (rest : List Request), s.mode = .idle ∧ s.requests = .memWrite a v :: rest :=
  ⟨State.reset.setRequests [.memWrite 200 0x31], 200, 0x31, [], by decide⟩

/-- The greatest length that fits CAP_W = 8 bits. -/
theorem witness_OperandWriteSetsItsField :
    ∃ (s s' : State) (n : Nat) (rest : List Request), s.mode = .idle ∧ s'.mode = .idle ∧ n < 2 ^ s.params.capW ∧
      n < 2 ^ s'.params.capW ∧ s.requests = .setInput .txt 300 n :: rest ∧ s'.requests = .setOut 600 n :: rest :=
  ⟨State.reset.setRequests [.setInput .txt 300 255], State.reset.setRequests [.setOut 600 255], 255, [], by decide⟩

/-- The greatest capacity that fits CAP_W = 8 bits, and three input spaces side by side. -/
theorem witness_AssemblerLineRunsItsCommand :
    ∃ (s : State) (at_ : Placement) (cap : Nat) (sm d t : List Byte), s.mode = .idle ∧ cap < 2 ^ s.params.capW ∧
      sm.length < 2 ^ s.params.capW ∧ d.length < 2 ^ s.params.capW ∧ t.length < 2 ^ s.params.capW ∧
      Agree at_.digs sm at_.digd d ∧ Agree at_.digs sm at_.txt t ∧ Agree at_.digd d at_.txt t :=
  ⟨State.reset, { digs := 100, digd := 102, txt := 103, out := 600 }, 255, [0x31, 0x32], [0x33], [0x41], by decide, by decide,
    by decide, by decide, by decide, by unfold Agree; decide, by unfold Agree; decide, by unfold Agree; decide⟩

/-- DIGS and DIGD are the same bytes. -/
theorem witness_AssemblerLineRunsItsCommand_overlap :
    ∃ (a : Nat) (sm d : List Byte), sm ≠ [] ∧ d ≠ [] ∧ Agree a sm a d :=
  ⟨100, [0x31, 0x32], [0x31, 0x32], by decide, by decide, by unfold Agree; decide⟩

theorem witness_AcceptanceStartsFresh :
    ∃ (s : State) (b : Byte) (i : Instr) (rest : List Request), decode b = .ok i ∧ s.accepts i ∧
      s.requests = .issueNoWait b :: rest :=
  ⟨(demo 1 [] [0x31] []).setRequests [.issueNoWait 0x01], 0x01, .encaddr, [], by decide, accepts_of (by decide), rfl⟩

theorem witness_SmallStepsReachTheTransaction :
    ∃ (s : State) (b : Byte) (i : Instr), decode b = .ok i ∧ s.accepts i ∧ s.requests = [.issueNoWait b] :=
  ⟨(demo 13 [] [0x31, 0x32, 0x33, 0x34] [0x41, 0x42]).setRequests [.issueNoWait 0x03], 0x03, .asmpdu false, by decide,
    accepts_of (by decide), rfl⟩

theorem witness_StageNeverGoesBack :
    ∃ (s t : State) (smsc : Bool), s.Inv ∧ s.mode = .running (.asmpdu smsc) ∧ s.requests = [] ∧ step s = .next t ∧
      t.mode = .running (.asmpdu smsc) := by
  obtain ⟨t, ht, hm⟩ := exists_of_ends (o := step inStageOne) (p := fun t => t.mode == .running (.asmpdu false)) (by decide)
  exact ⟨inStageOne, t, false, inStageOne_inv, rfl, rfl, ht, by simpa using hm⟩

/-- P = 7, where the cursor skips. -/
theorem witness_PhaseFollowsBytesWritten :
    ∃ (s t : State) (op : Instr), s.Inv ∧ s.mode = .running op ∧ s.tr.unit = .septetPack ∧ s.requests = [] ∧
      s.tr.i + 1 < s.iface.nt ∧ step s = .next t ∧ s.tr.p.toNat = 7 := by
  obtain ⟨t, ht, -⟩ := exists_of_ends (o := step inPass) (p := fun _ => true) (by decide)
  exact ⟨inPass, t, .pack7, inPass_inv, rfl, rfl, rfl, by decide, ht, by decide⟩

/-- The last byte of TXT, read. -/
theorem witness_AccessWhileRunning :
    ∃ (s : State) (op : Instr) (a : Nat) (rest : List Request), s.mode = .running op ∧ ¬ s.InOut a ∧ (∃ sp, s.InInput sp a) ∧
      s.requests = .memRead a :: rest :=
  ⟨inPass.setRequests [.memRead 308], .pack7, 308, [], rfl, fun h => absurd (inOut_iff.2 h) (by decide), ⟨.txt, 8, by decide, rfl⟩, rfl⟩

/-- The byte after TXT, read. -/
theorem witness_AccessWhileRunning_outside :
    ∃ (s : State) (op : Instr) (a : Nat) (rest : List Request), s.mode = .running op ∧ ¬ s.InOut a ∧ (∀ sp, ¬ s.InInput sp a) ∧
      s.requests = .memRead a :: rest :=
  ⟨inPass.setRequests [.memRead 309], .pack7, 309, [], rfl, fun h => absurd (inOut_iff.2 h) (by decide),
    fun sp h => absurd (inInputs_iff.2 ⟨sp, h⟩) (by decide), rfl⟩

end Sys2Proof.Tests
end

section
/-! PROOFS. What a command that ends well has done: its body ran through, no check failed, and the write position moved by the lengths of
the parts; with them, how long a successful result can be (00_scope.md R8). -/

namespace Sys2Proof.Laws

open Sys2Proof.Machine

/-! ### A command that ends well -/

theorem exec_encaddr (s : State) : exec .encaddr s = transact .encaddr encAddrBody s := rfl

theorem exec_pack7 (s : State) : exec .pack7 s = transact .pack7 pack7Body s := rfl

theorem exec_asmpdu (smsc : Bool) (s : State) : exec (.asmpdu smsc) s = transact (.asmpdu smsc) (asmPduBody smsc) s := rfl

/-- A command that ends with OK was accepted, and its body ran to its end. -/
theorem accepts_and_body_of_transact_ok {i : Instr} {body : State → Run State} {s t : State}
    (h : transact i body s = .next t) (hok : t.status = .ok) : s.accepts i ∧ body (started i s) = .ok t := by
  obtain ⟨r, -, hr⟩ | ⟨ha, ⟨f, -, hf⟩ | ⟨e, s', -, he⟩ | ⟨s', hb, hs⟩⟩ := transact_cases i body s
  · rw [hr] at h
    cases h
  · rw [hf] at h
    cases h
  · rw [he] at h
    cases h
    exact absurd hok (errKind_status_ne_ok e)
  · rw [hs] at h
    cases h
    exact ⟨ha, hb⟩

/-- Two parts of an operation run through exactly when the first does and the second does from there. -/
theorem run_bind_eq_ok {α β : Type} {r : Run α} {f : α → Run β} {b : β} :
    (r >>= f) = .ok b ↔ ∃ a, r = .ok a ∧ f a = .ok b := by
  cases r with
  | ok a => simp
  | error e => simp

/-- Acceptance moves no buffer. -/
theorem apart_started {s : State} (i : Instr) (h : s.Apart) : (started i s).Apart := by
  intro sp k j hk hj
  simp only [started, setMode_inBase, setTr_inBase, setMode_inSize, setTr_inSize] at hj ⊢
  exact h sp k j hk hj

theorem Kept.inSize {s s' : State} (k : Kept s s') (sp : InSpace) : s'.inSize sp = s.inSize sp := by
  cases sp <;> simp only [State.inSize, k.iface]

theorem Kept.inBase {s s' : State} (k : Kept s s') (sp : InSpace) : s'.inBase sp = s.inBase sp := by
  cases sp <;> simp only [State.inBase, k.place]

/-- No part of an operation moves a buffer. -/
theorem Kept.apart {s s' : State} (k : Kept s s') (h : s.Apart) : s'.Apart := by
  intro sp i j hi hj
  rw [k.iface] at hi
  rw [k.inSize] at hj
  rw [k.place, k.inBase]
  exact h sp i j hi hj

/-! ### The unit procedures, run through -/

/-- AddrEncode that runs through has written every digit pair. -/
theorem addrEncode_eq_ok {s s' : State} {src : InSpace} {ndig base capr : Nat} (ha : s.Apart) (hn : ndig ≤ s.inSize src)
    (hc : capr ≤ s.iface.cap - base) (hb : base ≤ s.iface.cap) (h : addrEncode src ndig base capr s = .ok s') :
    ceilDiv ndig 2 ≤ capr ∧ s' = addrState s src ndig base (ceilDiv ndig 2) := by
  rw [addrEncode_eq ha hn hc hb] at h
  obtain ⟨e, he⟩ | ⟨hcap, -, hnone⟩ := pickError_cases s.draws (capr < ceilDiv ndig 2)
    (!(List.range ndig).all fun k => isDigit (s.inByte src k)) .capacity .format
  · rw [he] at h
    cases h
  · rw [hnone] at h
    cases h
    exact ⟨by simpa using hcap, rfl⟩

/-- SeptetPack that runs through had at most 160 septets to pack, and has packed them all. -/
theorem septetPack_eq_ok {s s' : State} {base capr : Nat} (ha : s.Apart) (hc : capr ≤ s.iface.cap - base)
    (hb : base ≤ s.iface.cap) (h : septetPack base capr s = .ok s') :
    s.iface.nt ≤ 160 ∧ packedLength s.iface.nt ≤ capr ∧ s' = septetDone s base := by
  rw [septetPack_eq ha hc hb] at h
  obtain ⟨e, he⟩ | ⟨hlen, hcap, hnone⟩ := pickError_cases s.draws (160 < s.iface.nt) (capr < packedLength s.iface.nt)
    .length .capacity
  · rw [he] at h
    cases h
  · rw [hnone] at h
    cases h
    exact ⟨by simpa using hlen, by simpa using hcap, rfl⟩

/-- ENCADDR that runs through has LEN = ceil(ND/2) (R105). -/
theorem len_of_encAddrBody {s t : State} (ha : s.Apart) (h : encAddrBody s = .ok t) : t.len = ceilDiv s.iface.nd 2 := by
  obtain ⟨s₁, h₁, h₂⟩ := run_bind_eq_ok.1 h
  obtain ⟨-, rfl⟩ := addrEncode_eq_ok ha (le_refl _) (le_refl _) (Nat.zero_le _) h₁
  cases h₂
  rfl

/-- PACK7 that runs through has a text of at most 160 septets and LEN = L (R122, R123). -/
theorem len_of_pack7Body {s t : State} (ha : s.Apart) (h : pack7Body s = .ok t) :
    s.iface.nt ≤ 160 ∧ t.len = packedLength s.iface.nt := by
  obtain ⟨s₁, h₁, h₂⟩ := run_bind_eq_ok.1 h
  obtain ⟨hlen, -, rfl⟩ := septetPack_eq_ok ha (le_refl _) (Nat.zero_le _) h₁
  cases h₂
  exact ⟨hlen, rfl⟩

/-! ### The stages of ASMPDU, run through -/

/-- From `s` to `s'` a part of ASMPDU has written `n` bytes at W and moved W past them, within CAP (R151). -/
structure Advanced (s s' : State) (n : Nat) : Prop where
  kept : Kept s s'
  w : s'.tr.w = s.tr.w + n
  fits : s'.tr.w ≤ s'.iface.cap

theorem Advanced.trans {s s' s'' : State} {n m : Nat} (h : Advanced s s' n) (g : Advanced s' s'' m) :
    Advanced s s'' (n + m) where
  kept := h.kept.trans g.kept
  w := by rw [g.w, h.w, Nat.add_assoc]
  fits := g.fits

theorem Advanced.setStage {s s' : State} {n : Nat} (h : Advanced s s' n) (st : Stage) : Advanced s (s'.setStage st) n :=
  ⟨h.kept.setTr _, h.w, h.fits⟩

theorem emitAll_advances {vs : List Byte} {s s' : State} (hw : s.tr.w ≤ s.iface.cap) (h : emitAll vs s = .ok s') :
    Advanced s s' vs.length := by
  obtain ⟨e, z, he, -⟩ | ⟨hfit, he, k⟩ := emitAll_cases (vs := vs) (s := s)
  · rw [he] at h
    cases h
  · rw [he] at h
    cases h
    exact ⟨k, rfl, hfit.trans (by rw [max_eq_right hw, k.iface])⟩

theorem pduAddr_advances {src : InSpace} {ndig : Nat} {s s' : State} (ha : s.Apart) (hn : ndig ≤ s.inSize src)
    (hw : s.tr.w ≤ s.iface.cap) (h : pduAddr src ndig s = .ok s') : Advanced s s' (ceilDiv ndig 2) := by
  have k := (keepsAt_pduAddr src ndig s).ok s' h
  obtain ⟨s₁, h₁, h₂⟩ := run_bind_eq_ok.1 h
  obtain ⟨hfit, rfl⟩ := addrEncode_eq_ok ha hn (le_refl _) hw h₁
  cases h₂
  refine ⟨k, rfl, ?_⟩
  show s.tr.w + ceilDiv ndig 2 ≤ s.iface.cap
  omega

theorem pduText_advances {s s' : State} (ha : s.Apart) (hw : s.tr.w ≤ s.iface.cap) (h : pduText s = .ok s') :
    s.iface.nt ≤ 160 ∧ Advanced s s' (packedLength s.iface.nt) := by
  have k := (keepsAt_pduText s).ok s' h
  obtain ⟨s₁, h₁, h₂⟩ := run_bind_eq_ok.1 h
  obtain ⟨hlen, hfit, rfl⟩ := septetPack_eq_ok ha (le_refl _) hw h₁
  cases h₂
  refine ⟨hlen, k, rfl, ?_⟩
  show s.tr.w + packedLength s.iface.nt ≤ s.iface.cap
  omega

/-- Stage 1 moves W to A of the layout (R152, R153). -/
theorem stageSmsc_advances {smsc : Bool} {s s' : State} (ha : s.Apart) (hw : s.tr.w ≤ s.iface.cap)
    (h : stageSmsc smsc s = .ok s') : Advanced s s' (s.iface.posA smsc) := by
  obtain ⟨s₁, h₁, h₂⟩ := run_bind_eq_ok.1 h
  have a₁ := emitAll_advances hw h₁
  cases smsc with
  | false =>
    cases h₂
    exact a₁
  | true =>
    have a₂ := a₁.trans (pduAddr_advances (a₁.kept.apart ha) (le_refl _) a₁.fits h₂)
    rwa [a₁.kept.inSize] at a₂

/-- Stage 3 writes the digit count, the type of address and the digit pairs (R157). -/
theorem stageDest_advances {smsc : Bool} {s s' : State} (ha : s.Apart) (hw : s.tr.w ≤ s.iface.cap)
    (h : stageDest smsc s = .ok s') : Advanced s s' (2 + ceilDiv s.iface.nd 2) := by
  obtain ⟨s₁, h₁, h₂⟩ := run_bind_eq_ok.1 h
  have a₁ := emitAll_advances hw h₁
  have a₂ := a₁.trans (pduAddr_advances (a₁.kept.apart ha) (le_refl _) a₁.fits h₂)
  rwa [a₁.kept.inSize] at a₂

/-- The lengths of the stages add up to T of the layout (R152). -/
theorem posT_eq_sum (f : Iface) (smsc : Bool) :
    f.posT smsc = f.posA smsc + 2 + (2 + ceilDiv f.nd 2) + 3 + 1 + packedLength f.nt := by
  simp only [Iface.posT, Iface.posB]
  omega

/-- ASMPDU that runs through has a text of at most 160 septets and LEN = T (R152, R161). -/
theorem len_of_asmPduBody {smsc : Bool} {s t : State} (ha : s.Apart) (hw : s.tr.w = 0) (h : asmPduBody smsc s = .ok t) :
    s.iface.nt ≤ 160 ∧ t.len = s.iface.posT smsc := by
  obtain ⟨s₁, h₁, h⟩ := run_bind_eq_ok.1 h
  obtain ⟨s₂, h₂, h⟩ := run_bind_eq_ok.1 h
  obtain ⟨s₃, h₃, h⟩ := run_bind_eq_ok.1 h
  obtain ⟨s₄, h₄, h⟩ := run_bind_eq_ok.1 h
  obtain ⟨s₅, h₅, h⟩ := run_bind_eq_ok.1 h
  obtain ⟨s₆, h₆, h⟩ := run_bind_eq_ok.1 h
  have a₁ := (stageSmsc_advances ha (by omega) h₁).setStage .header
  have a₂ := (a₁.trans (emitAll_advances a₁.fits h₂)).setStage .dest
  have a₃ := (a₂.trans (stageDest_advances (a₂.kept.apart ha) a₂.fits h₃)).setStage .consts
  have a₄ := (a₃.trans (emitAll_advances a₃.fits h₄)).setStage .udl
  have a₅ := (a₄.trans (emitAll_advances a₄.fits h₅)).setStage .text
  obtain ⟨hlen, a₆⟩ := pduText_advances (a₅.kept.apart ha) a₅.fits h₆
  have w₆ := (a₅.trans a₆).w
  rw [a₅.kept.iface] at hlen w₆
  rw [a₂.kept.iface, hw, Nat.zero_add] at w₆
  cases h
  exact ⟨hlen, w₆.trans (posT_eq_sum s.iface smsc).symm⟩

/-! ### How long a successful result can be -/

theorem ceilDiv_two_mono {m n : Nat} (h : m ≤ n) : ceilDiv m 2 ≤ ceilDiv n 2 := by
  rw [ceilDiv_two, ceilDiv_two]
  omega

/-- 160 septets pack into 140 bytes (R8, R122). -/
theorem packedLength_le_140 {n : Nat} (h : n ≤ 160) : packedLength n ≤ 140 := by
  rw [packedLength_eq]
  omega

theorem posA_le {s : State} {smsc : Bool} (h : smsc = true → s.iface.ns ≤ s.params.maxDigits) :
    s.iface.posA smsc ≤ 1 + 1 + ceilDiv s.params.maxDigits 2 := by
  cases smsc with
  | false =>
    show 1 ≤ _
    omega
  | true =>
    show 2 + ceilDiv s.iface.ns 2 ≤ _
    have := ceilDiv_two_mono (h rfl)
    omega

theorem encaddr_len_le {s t : State} (hok : t.status = .ok) (h : exec .encaddr s = .next t) :
    t.len ≤ ceilDiv s.params.maxDigits 2 := by
  rw [exec_encaddr] at h
  obtain ⟨⟨-, hfit, ha⟩, hb⟩ := accepts_and_body_of_transact_ok h hok
  rw [len_of_encAddrBody (apart_started _ ha) hb]
  exact ceilDiv_two_mono hfit

theorem pack7_len_le {s t : State} (hok : t.status = .ok) (h : exec .pack7 s = .next t) : t.len ≤ 140 := by
  rw [exec_pack7] at h
  obtain ⟨⟨-, -, ha⟩, hb⟩ := accepts_and_body_of_transact_ok h hok
  obtain ⟨hnt, hlen⟩ := len_of_pack7Body (apart_started _ ha) hb
  rw [hlen]
  exact packedLength_le_140 hnt

theorem asmpdu_len_le {smsc : Bool} {s t : State} (hok : t.status = .ok) (h : exec (.asmpdu smsc) s = .next t) :
    t.len ≤ 1 + 1 + ceilDiv s.params.maxDigits 2 + 2 + 2 + ceilDiv s.params.maxDigits 2 + 3 + 1 + 140 := by
  rw [exec_asmpdu] at h
  obtain ⟨⟨-, ⟨hns, hnd⟩, ha⟩, hb⟩ := accepts_and_body_of_transact_ok h hok
  obtain ⟨hnt, hlen⟩ := len_of_asmPduBody (apart_started _ ha) rfl hb
  have hT : t.len = s.iface.posA smsc + 2 + (2 + ceilDiv s.iface.nd 2) + 3 + 1 + packedLength s.iface.nt :=
    hlen.trans (posT_eq_sum s.iface smsc)
  have hA := posA_le hns
  have hD := ceilDiv_two_mono hnd
  have hL : packedLength s.iface.nt ≤ 140 := packedLength_le_140 hnt
  omega

/-- Settles O32: LEN of a success is the length its rules give (R105, R122, R152); acceptance bounds the digit counts (R109), and SeptetPack's
check bounds the text (R123). -/
theorem resultLengthBounds : Obligations.ResultLengthBounds := by
  unfold Obligations.ResultLengthBounds
  exact fun s t hok => ⟨encaddr_len_le hok, pack7_len_le hok, fun _ => asmpdu_len_le hok⟩

end Sys2Proof.Laws
end

section
/-! PROOFS. What an accepted command answers: the kinds it may report and the bytes it writes are functions of its operands and the
configuration (10_state.md R20), and each part of its body either raises the kind its check picks or writes its bytes. -/

namespace Sys2Proof.Laws

open Sys2Proof.Machine

/-! ### The operands a command reads -/

/-- Two states have the same bytes in an input space. -/
def SameInput (s s' : State) (sp : InSpace) : Prop :=
  s.inSize sp = s'.inSize sp ∧ ∀ k, k < s.inSize sp → s.inByte sp k = s'.inByte sp k

/-- Two states agree on all that a command reads (R20, R72). -/
structure SameOperands (i : Instr) (s s' : State) : Prop where
  cap : s.iface.cap = s'.iface.cap
  cfg : (∃ smsc, i = .asmpdu smsc) → s.cfg = s'.cfg
  inputs : ∀ sp ∈ reads i, SameInput s s' sp

/-- No part of an operation changes a byte of an input space (R55). -/
theorem Kept.sameInput {s s' : State} (k : Kept s s') (ha : s.Apart) (sp : InSpace) : SameInput s s' sp := by
  refine ⟨(k.inSize sp).symm, fun j hj => ?_⟩
  have hout : ¬ s.InOut (s.inBase sp + j) := by
    rintro ⟨o, ho, e⟩
    exact ha sp o j ho hj e.symm
  rw [State.inByte, State.inByte, k.inBase, k.outside _ hout]

/-- Acceptance changes nothing that a command reads. -/
theorem sameOperands_started (i : Instr) (s : State) : SameOperands i s (started i s) :=
  ⟨rfl, fun _ => rfl, fun sp _ => ⟨by simp [started], fun k _ => by simp [started]⟩⟩

section sameInput
variable {s s' : State} {sp : InSpace}

theorem SameInput.addrErrors {n capr : Nat} (h : SameInput s s' sp) (hn : n ≤ s.inSize sp) :
    s.addrErrors sp n capr = s'.addrErrors sp n capr := by
  have hall : ((List.range n).all fun k => isDigit (s.inByte sp k)) =
      (List.range n).all fun k => isDigit (s'.inByte sp k) := by
    rw [Bool.eq_iff_iff, List.all_eq_true, List.all_eq_true]
    refine forall₂_congr fun k hk => ?_
    rw [h.2 k ((List.mem_range.1 hk).trans_le hn)]
  simp only [State.addrErrors, hall]

theorem SameInput.pairByte {n k : Nat} (h : SameInput s s' sp) (hn : n ≤ s.inSize sp) (hk : 2 * k < n) :
    pairByte s sp n k = pairByte s' sp n k := by
  simp only [Laws.pairByte]
  rw [h.2 (2 * k) (by omega)]
  split
  · rw [h.2 (2 * k + 1) (by omega)]
  · rfl

theorem SameInput.pairBytes {n : Nat} (h : SameInput s s' sp) (hn : n ≤ s.inSize sp) :
    pairBytes s sp n (ceilDiv n 2) = pairBytes s' sp n (ceilDiv n 2) := by
  refine List.map_congr_left fun k hk => h.pairByte hn ?_
  rw [List.mem_range, ceilDiv_two] at hk
  omega

theorem SameInput.nt (h : SameInput s s' .txt) : s.iface.nt = s'.iface.nt := h.1

theorem SameInput.textErrors {capr : Nat} (h : SameInput s s' .txt) : s.textErrors capr = s'.textErrors capr := by
  simp only [State.textErrors, h.nt]

theorem SameInput.septetBytes (h : SameInput s s' .txt) : septetBytes s = septetBytes s' := by
  have hb : ∀ j, j < s.iface.nt → s.inByte .txt j = s'.inByte .txt j := h.2
  have hpass : passBytes s (passCount s.iface.nt) = passBytes s' (passCount s.iface.nt) := by
    refine List.map_congr_left fun k hk => ?_
    rw [List.mem_range, passCount] at hk
    simp only [passByte]
    rw [hb (k + k / 7) (by omega), hb (k + k / 7 + 1) (by omega)]
  simp only [Laws.septetBytes]
  rw [hpass, ← h.nt]
  by_cases h8 : s.iface.nt % 8 = 0
  · rw [if_pos h8, if_pos h8]
  · rw [if_neg h8, if_neg h8, hb (s.iface.nt - 1) (by omega)]

end sameInput

/-! ### The kind a check point reports -/

/-- The kind reported where these kinds apply: none, the only one, or a free pick of the first two (R104, R124, R163). -/
def pickFrom (draw : Nat) : List ErrKind → Option ErrKind
  | [] => none
  | [e] => some e
  | e₁ :: e₂ :: _ => some (if Config.freeErrorPick draw then e₁ else e₂)

theorem pickFrom_eq_none {draw : Nat} {errs : List ErrKind} : pickFrom draw errs = none ↔ errs = [] := by
  match errs with
  | [] => simp [pickFrom]
  | [_] => simp [pickFrom]
  | _ :: _ :: _ => simp [pickFrom]

theorem pickError_eq_pickFrom (draw : Nat) (a b : Bool) (k₁ k₂ : ErrKind) :
    pickError draw a b k₁ k₂ = pickFrom draw ((if a then [k₁] else []) ++ (if b then [k₂] else [])) := by
  cases a <;> cases b <;> rfl

theorem pickError_addrErrors (s : State) (sp : InSpace) (n capr : Nat) :
    pickError s.draws (capr < ceilDiv n 2) (!(List.range n).all fun k => isDigit (s.inByte sp k)) .capacity .format =
      pickFrom s.draws (s.addrErrors sp n capr) := by
  rw [pickError_eq_pickFrom, State.addrErrors]
  cases (List.range n).all fun k => isDigit (s.inByte sp k) <;> simp

theorem pickError_textErrors (s : State) (capr : Nat) :
    pickError s.draws (160 < s.iface.nt) (capr < packedLength s.iface.nt) .length .capacity =
      pickFrom s.draws (s.textErrors capr) := by
  rw [pickError_eq_pickFrom, State.textErrors]
  simp

theorem emitErrors_eq_nil {s : State} {pos : Nat} : s.emitErrors pos = [] ↔ pos ≤ s.iface.cap := by
  simp [State.emitErrors]

theorem isDigit_iff {c : Byte} : isDigit c = true ↔ 0x30 ≤ c.toNat ∧ c.toNat ≤ 0x39 := by
  simp [isDigit]

theorem addrErrors_eq_nil {s : State} {sp : InSpace} {n capr : Nat} :
    s.addrErrors sp n capr = [] ↔ ceilDiv n 2 ≤ capr ∧ s.DigitString sp n := by
  simp [State.addrErrors, State.DigitString, isDigit_iff]

theorem textErrors_eq_nil {s : State} {capr : Nat} :
    s.textErrors capr = [] ↔ s.iface.nt ≤ 160 ∧ packedLength s.iface.nt ≤ capr := by
  simp [State.textErrors]

/-- The kinds of the earliest check that fails (R163). -/
def firstFailing (checks : List (List ErrKind)) : List ErrKind := (checks.find? fun e => !e.isEmpty).getD []

theorem firstFailing_singleton (errs : List ErrKind) : firstFailing [errs] = errs := by
  cases errs <;> rfl

theorem firstFailing_cons (errs : List ErrKind) (checks : List (List ErrKind)) :
    firstFailing (errs :: checks) = if errs = [] then firstFailing checks else errs := by
  cases errs <;> rfl

theorem firstFailing_append (a b : List (List ErrKind)) :
    firstFailing (a ++ b) = if firstFailing a = [] then firstFailing b else firstFailing a := by
  induction a with
  | nil => rfl
  | cons e a ih =>
    rw [List.cons_append, firstFailing_cons, firstFailing_cons, ih]
    by_cases he : e = []
    · rw [if_pos he, if_pos he]
    · rw [if_neg he, if_neg he, if_neg he]

theorem firstFailing_eq_nil {checks : List (List ErrKind)} : firstFailing checks = [] ↔ ∀ c ∈ checks, c = [] := by
  induction checks with
  | nil => simp [firstFailing]
  | cons e checks ih =>
    rw [firstFailing_cons, List.forall_mem_cons, ← ih]
    by_cases he : e = [] <;> simp [he]

/-! ### The unit procedures, by their lists of errors -/

theorem addrEncode_raises {s : State} {src : InSpace} {ndig base capr : Nat} {e : ErrKind} (ha : s.Apart)
    (hn : ndig ≤ s.inSize src) (hc : capr ≤ s.iface.cap - base) (hb : base ≤ s.iface.cap)
    (h : pickFrom s.draws (s.addrErrors src ndig capr) = some e) :
    addrEncode src ndig base capr s = .error (.raised e s) := by
  rw [addrEncode_eq ha hn hc hb, pickError_addrErrors, h]

theorem addrEncode_writes {s : State} {src : InSpace} {ndig base capr : Nat} (ha : s.Apart) (hn : ndig ≤ s.inSize src)
    (hc : capr ≤ s.iface.cap - base) (hb : base ≤ s.iface.cap) (h : s.addrErrors src ndig capr = []) :
    addrEncode src ndig base capr s = .ok (addrState s src ndig base (ceilDiv ndig 2)) := by
  rw [addrEncode_eq ha hn hc hb, pickError_addrErrors, pickFrom_eq_none.2 h]

theorem septetPack_raises {s : State} {base capr : Nat} {e : ErrKind} (ha : s.Apart) (hc : capr ≤ s.iface.cap - base)
    (hb : base ≤ s.iface.cap) (h : pickFrom s.draws (s.textErrors capr) = some e) :
    septetPack base capr s = .error (.raised e s) := by
  rw [septetPack_eq ha hc hb, pickError_textErrors, h]

theorem septetPack_writes {s : State} {base capr : Nat} (ha : s.Apart) (hc : capr ≤ s.iface.cap - base)
    (hb : base ≤ s.iface.cap) (h : s.textErrors capr = []) : septetPack base capr s = .ok (septetDone s base) := by
  rw [septetPack_eq ha hc hb, pickError_textErrors, pickFrom_eq_none.2 h]

/-! ### The parts of ASMPDU -/

/-- From `s` to `s'` a part of ASMPDU has written these bytes at W and moved W past them (R151). -/
structure Wrote (s s' : State) (vs : List Byte) : Prop extends Advanced s s' vs.length where
  mem : s'.mem = stored s.mem (s.place.out + s.tr.w) vs

theorem Wrote.nil {s : State} (hw : s.tr.w ≤ s.iface.cap) : Wrote s s [] := ⟨⟨.refl s, rfl, hw⟩, rfl⟩

theorem Wrote.trans {s s' s'' : State} {vs ws : List Byte} (h : Wrote s s' vs) (g : Wrote s' s'' ws) :
    Wrote s s'' (vs ++ ws) where
  toAdvanced := by
    rw [List.length_append]
    exact h.toAdvanced.trans g.toAdvanced
  mem := by rw [g.mem, h.mem, h.w, h.kept.place, stored_append, Nat.add_assoc]

theorem Wrote.setStage {s s' : State} {vs : List Byte} (h : Wrote s s' vs) (st : Stage) : Wrote s (s'.setStage st) vs :=
  ⟨h.toAdvanced.setStage st, h.mem⟩

/-- A part of ASMPDU from `s`: it raises the kind picked from those of its earliest check that fails, or writes these bytes at W. -/
structure Writes (s : State) (checks : List (List ErrKind)) (vs : List Byte) (r : Run State) : Prop where
  raises : ∀ e, pickFrom s.draws (firstFailing checks) = some e → ∃ s', r = .error (.raised e s') ∧ Kept s s'
  writes : firstFailing checks = [] → ∃ s', r = .ok s' ∧ Wrote s s' vs

/-- One part after another: the first part's checks come first. -/
theorem Writes.bind {s : State} {checks checks' : List (List ErrKind)} {vs vs' : List Byte} {r : Run State}
    {g : State → Run State} (h : Writes s checks vs r) (hg : ∀ s', Wrote s s' vs → Writes s' checks' vs' (g s')) :
    Writes s (checks ++ checks') (vs ++ vs') (r >>= g) := by
  by_cases hc : firstFailing checks = []
  · obtain ⟨s₁, rfl, w₁⟩ := h.writes hc
    have hf : firstFailing (checks ++ checks') = firstFailing checks' := by rw [firstFailing_append, if_pos hc]
    refine ⟨fun e he => ?_, fun hn => ?_⟩
    · rw [hf, ← w₁.kept.draws] at he
      obtain ⟨s₂, h₂, k₂⟩ := (hg s₁ w₁).raises e he
      exact ⟨s₂, h₂, w₁.kept.trans k₂⟩
    · obtain ⟨s₂, h₂, w₂⟩ := (hg s₁ w₁).writes (hf ▸ hn)
      exact ⟨s₂, h₂, w₁.trans w₂⟩
  · have hf : firstFailing (checks ++ checks') = firstFailing checks := by rw [firstFailing_append, if_neg hc]
    refine ⟨fun e he => ?_, fun hn => absurd (hf ▸ hn) hc⟩
    obtain ⟨s₁, rfl, k₁⟩ := h.raises e (hf ▸ he)
    exact ⟨s₁, rfl, k₁⟩

/-- STAGE, set before a part, is no matter of what the part writes. -/
theorem Writes.of_setStage {s : State} (st : Stage) {checks : List (List ErrKind)} {vs : List Byte} {r : Run State}
    (h : Writes (s.setStage st) checks vs r) : Writes s checks vs r where
  raises e he := by
    obtain ⟨s', hr, k⟩ := h.raises e he
    exact ⟨s', hr, ((Kept.refl s).setTr _).trans k⟩
  writes hn := by
    obtain ⟨s', hr, w⟩ := h.writes hn
    exact ⟨s', hr, ⟨((Kept.refl s).setTr _).trans w.kept, w.w, w.fits⟩, w.mem⟩

/-- A part that does nothing, with no check. -/
theorem writes_nothing {s : State} (hw : s.tr.w ≤ s.iface.cap) : Writes s [[]] [] (.ok s) :=
  ⟨fun _ he => (by cases he), fun _ => ⟨s, rfl, .nil hw⟩⟩

theorem writes_emitAll {s : State} (vs : List Byte) (hw : s.tr.w ≤ s.iface.cap) :
    Writes s [s.emitErrors (s.tr.w + vs.length)] vs (emitAll vs s) := by
  by_cases hfit : s.tr.w + vs.length ≤ s.iface.cap
  · have hnil := emitErrors_eq_nil.2 hfit
    have he := emitAll_of_fits vs s hfit
    rw [hnil]
    exact ⟨fun _ h => (by cases h), fun _ => ⟨_, he, emitAll_advances hw he, rfl⟩⟩
  · have hcap : s.emitErrors (s.tr.w + vs.length) = [.capacity] := if_pos (by omega)
    have hne : vs ≠ [] := by
      rintro rfl
      exact hfit hw
    obtain ⟨s', he, -⟩ := emitAll_of_short vs s hne (by omega)
    rw [hcap]
    refine ⟨fun e h => ?_, fun h => by cases h⟩
    cases h
    exact ⟨s', he, (keepsAt_emitAll vs s).raised _ _ he⟩

theorem writes_pduAddr {s : State} {src : InSpace} {ndig : Nat} (ha : s.Apart) (hn : ndig ≤ s.inSize src)
    (hw : s.tr.w ≤ s.iface.cap) :
    Writes s [s.addrErrors src ndig (s.iface.cap - s.tr.w)] (pairBytes s src ndig (ceilDiv ndig 2))
      (pduAddr src ndig s) := by
  refine ⟨fun e he => ⟨s, ?_, .refl s⟩, fun hnil => ?_⟩
  · rw [firstFailing_singleton] at he
    rw [pduAddr, addrEncode_raises ha hn (le_refl _) hw he, run_bind_error]
  · rw [firstFailing_singleton] at hnil
    have hr : pduAddr src ndig s = .ok (addrReturn (addrState s src ndig s.tr.w (ceilDiv ndig 2))) := by
      rw [pduAddr, addrEncode_writes ha hn (le_refl _) hw hnil, run_bind_ok]
    refine ⟨_, hr, ?_, rfl⟩
    rw [pairBytes_length]
    exact pduAddr_advances ha hn hw hr

theorem writes_pduText {s : State} (ha : s.Apart) (hw : s.tr.w ≤ s.iface.cap) :
    Writes s [s.textErrors (s.iface.cap - s.tr.w)] (septetBytes s) (pduText s) := by
  refine ⟨fun e he => ⟨s, ?_, .refl s⟩, fun hnil => ?_⟩
  · rw [firstFailing_singleton] at he
    rw [pduText, septetPack_raises ha (le_refl _) hw he, run_bind_error]
  · rw [firstFailing_singleton] at hnil
    have hr : pduText s = .ok (septetReturn (septetDone s s.tr.w)) := by
      rw [pduText, septetPack_writes ha (le_refl _) hw hnil, run_bind_ok]
    refine ⟨_, hr, ?_, rfl⟩
    rw [septetBytes_length]
    exact (pduText_advances ha hw hr).2

end Sys2Proof.Laws
end

section
/-! PROOFS. What every command answers: accepted, the kind picked from `State.errors` or the bytes `writtenBytes`; else a refusal. With it, that
an accepted command ends (10_state.md R26), that its result depends on its operands only (R20), and that ASMPDU copies the configuration
registers (R28). -/

namespace Sys2Proof.Laws

open Sys2Proof.Machine

/-! ### The stages of ASMPDU, one after another -/

/-- The bytes of stage 1 (R153). -/
def smscWritten (smsc : Bool) (s : State) : List Byte :=
  stageBytes smsc .smsc s ++ if smsc then pairBytes s .digs s.iface.ns (ceilDiv s.iface.ns 2) else []

/-- The bytes ASMPDU writes, stage by stage (R151). -/
def pduWritten (smsc : Bool) (s : State) : List Byte :=
  smscWritten smsc s ++ (stageBytes smsc .header s ++
    ((stageBytes smsc .dest s ++ pairBytes s .digd s.iface.nd (ceilDiv s.iface.nd 2)) ++
      (stageBytes smsc .consts s ++ (stageBytes smsc .udl s ++ septetBytes s))))

/-- The checks of stage 1 (R153). -/
def smscChecks (smsc : Bool) (s : State) : List (List ErrKind) :=
  [s.emitErrors (if smsc then 2 else 1)] ++
    [if smsc then s.addrErrors .digs s.iface.ns (s.iface.cap - 2) else []]

/-- The checks of ASMPDU in the order of its stages (R151). -/
def pduChecks (smsc : Bool) (s : State) : List (List ErrKind) :=
  smscChecks smsc s ++ ([s.emitErrors (s.iface.posA smsc + 2)] ++
    (([s.emitErrors (s.iface.posA smsc + 4)] ++
        [s.addrErrors .digd s.iface.nd (s.iface.cap - (s.iface.posA smsc + 4))]) ++
      ([s.emitErrors (s.iface.posB smsc + 3)] ++ ([s.emitErrors (s.iface.posB smsc + 4)] ++
        [s.textErrors (s.iface.cap - (s.iface.posB smsc + 4))]))))

theorem errors_asmpdu (smsc : Bool) (s : State) : s.errors (.asmpdu smsc) = firstFailing (pduChecks smsc s) := rfl

@[simp] theorem stageBytes_smsc_length (smsc : Bool) (s : State) :
    (stageBytes smsc .smsc s).length = if smsc then 2 else 1 := by
  cases smsc <;> rfl

@[simp] theorem smscWritten_length (smsc : Bool) (s : State) : (smscWritten smsc s).length = s.iface.posA smsc := by
  cases smsc with
  | false => rfl
  | true => simp [smscWritten, Iface.posA]

theorem Kept.stageBytes {s s' : State} (k : Kept s s') (smsc : Bool) (st : Stage) :
    stageBytes smsc st s' = stageBytes smsc st s := by
  simp only [Machine.stageBytes, k.iface, k.cfg]

/-! What a part of ASMPDU does where `s` is the state at its start and these bytes have been written since. -/

section parts
variable {s s₁ : State} {vs : List Byte} {pos : Nat} (w : Wrote s s₁ vs) (hpos : s.tr.w + vs.length = pos)
include w hpos

theorem writes_stageEmit (smsc : Bool) (st : Stage) :
    Writes s₁ [s.emitErrors (pos + (stageBytes smsc st s).length)] (stageBytes smsc st s) (stageEmit smsc st s₁) := by
  have h := writes_emitAll (stageBytes smsc st s₁) w.fits
  rw [w.kept.stageBytes, w.w, hpos, State.emitErrors, w.kept.iface] at h
  rwa [stageEmit, w.kept.stageBytes]

theorem writes_addr (ha : s.Apart) (src : InSpace) :
    Writes s₁ [s.addrErrors src (s.inSize src) (s.iface.cap - pos)]
      (pairBytes s src (s.inSize src) (ceilDiv (s.inSize src) 2)) (pduAddr src (s₁.inSize src) s₁) := by
  have h := writes_pduAddr (w.kept.apart ha) (le_refl (s₁.inSize src)) w.fits
  have same := w.kept.sameInput ha src
  rw [same.addrErrors (le_refl _), same.pairBytes (le_refl _), same.1]
  rwa [w.w, hpos, w.kept.iface] at h

theorem writes_text (ha : s.Apart) :
    Writes s₁ [s.textErrors (s.iface.cap - pos)] (septetBytes s) (pduText s₁) := by
  have h := writes_pduText (w.kept.apart ha) w.fits
  have same := w.kept.sameInput ha .txt
  rw [same.textErrors, same.septetBytes]
  rwa [w.w, hpos, w.kept.iface] at h

end parts

theorem writes_stageSmsc {smsc : Bool} {s : State} (ha : s.Apart) (hw : s.tr.w = 0) :
    Writes s (smscChecks smsc s) (smscWritten smsc s) (stageSmsc smsc s) := by
  have h := writes_stageEmit (.nil (by omega)) hw smsc .smsc
  rw [stageBytes_smsc_length, Nat.zero_add] at h
  refine h.bind fun s₁ w₁ => ?_
  cases smsc with
  | false => exact writes_nothing w₁.fits
  | true => exact writes_addr w₁ (by rw [hw]; rfl) ha .digs

theorem writes_stageDest {smsc : Bool} {s s₁ : State} {vs : List Byte} {pos : Nat} (ha : s.Apart) (w : Wrote s s₁ vs)
    (hpos : s.tr.w + vs.length = pos) :
    Writes s₁ ([s.emitErrors (pos + 2)] ++ [s.addrErrors .digd s.iface.nd (s.iface.cap - (pos + 2))])
      (stageBytes smsc .dest s ++ pairBytes s .digd s.iface.nd (ceilDiv s.iface.nd 2)) (stageDest smsc s₁) :=
  (writes_stageEmit w hpos smsc .dest).bind fun _ w' =>
    writes_addr (w.trans w') (by rw [List.length_append, ← Nat.add_assoc, hpos]; rfl) ha .digd

/-- The stages 1 to 6 of ASMPDU (R151). -/
def asmPduStages (smsc : Bool) (s : State) : Run State := do
  let s₁ ← stageSmsc smsc s
  let s₂ ← stageEmit smsc .header (s₁.setStage .header)
  let s₃ ← stageDest smsc (s₂.setStage .dest)
  let s₄ ← stageEmit smsc .consts (s₃.setStage .consts)
  let s₅ ← stageEmit smsc .udl (s₄.setStage .udl)
  pduText (s₅.setStage .text)

theorem asmPduBody_eq (smsc : Bool) (s : State) :
    asmPduBody smsc s = asmPduStages smsc s >>= fun s₆ => .ok (finish s₆.tr.w (s₆.setStage .done)) := by
  simp only [asmPduBody, asmPduStages, bind_assoc]

/-- All that the stages of ASMPDU can do from the start of the operation. -/
theorem writes_asmPduStages {smsc : Bool} {s : State} (ha : s.Apart) (hw : s.tr.w = 0) :
    Writes s (pduChecks smsc s) (pduWritten smsc s) (asmPduStages smsc s) := by
  refine (writes_stageSmsc ha hw).bind fun s₁ w₁ => .of_setStage .header ?_
  have hA : s.tr.w + (smscWritten smsc s).length = s.iface.posA smsc := by rw [hw, smscWritten_length, Nat.zero_add]
  replace w₁ := w₁.setStage .header
  refine (writes_stageEmit w₁ hA smsc .header).bind fun s₂ w₂ => .of_setStage .dest ?_
  replace w₂ := (w₁.trans w₂).setStage .dest
  refine (writes_stageDest (smsc := smsc) ha w₂ (pos := s.iface.posA smsc + 2) ?_).bind fun s₃ w₃ => .of_setStage .consts ?_
  · simp [hw, stageBytes]
  replace w₃ := (w₂.trans w₃).setStage .consts
  have hB : s.tr.w + (smscWritten smsc s ++ stageBytes smsc .header s ++
      (stageBytes smsc .dest s ++ pairBytes s .digd s.iface.nd (ceilDiv s.iface.nd 2))).length = s.iface.posB smsc := by
    simp [hw, stageBytes, Iface.posB]
    omega
  refine (writes_stageEmit w₃ hB smsc .consts).bind fun s₄ w₄ => .of_setStage .udl ?_
  replace w₄ := (w₃.trans w₄).setStage .udl
  have hU : ∀ vs : List Byte, s.tr.w + vs.length = s.iface.posB smsc →
      s.tr.w + (vs ++ stageBytes smsc .consts s).length = s.iface.posB smsc + 3 := fun vs h => by
    rw [List.length_append, ← Nat.add_assoc, h]
    rfl
  refine (writes_stageEmit w₄ (hU _ hB) smsc .udl).bind fun s₅ w₅ => .of_setStage .text ?_
  refine writes_text ((w₄.trans w₅).setStage .text) ?_ ha
  rw [List.length_append, ← Nat.add_assoc, hU _ hB]
  rfl

/-! ### The three commands -/

/-- The bytes a command writes where no check fails. -/
def writtenBytes (i : Instr) (s : State) : List Byte :=
  match i with
  | .encaddr => pairBytes s .digd s.iface.nd (ceilDiv s.iface.nd 2)
  | .pack7 => septetBytes s
  | .asmpdu smsc => pduWritten smsc s

/-- The body of a command: it raises the kind picked from `errs`, or finishes with these bytes at the start of OUT. -/
structure BodyEnds (s : State) (errs : List ErrKind) (vs : List Byte) (r : Run State) : Prop where
  raises : ∀ e, pickFrom s.draws errs = some e → ∃ s', r = .error (.raised e s') ∧ Kept s s'
  finishes : errs = [] → ∃ s', r = .ok (finish vs.length s') ∧ Kept s s' ∧ vs.length ≤ s.iface.cap ∧
    s'.mem = stored s.mem s.place.out vs

theorem encAddrBody_ends {s : State} (ha : s.Apart) :
    BodyEnds s (s.errors .encaddr) (writtenBytes .encaddr s) (encAddrBody s) where
  raises e he := by
    have hr := addrEncode_raises ha (le_refl s.iface.nd) (le_refl s.iface.cap) (Nat.zero_le _) he
    exact ⟨s, by rw [encAddrBody, hr, run_bind_error], .refl s⟩
  finishes hnil := by
    have hr := addrEncode_writes ha (le_refl s.iface.nd) (le_refl s.iface.cap) (Nat.zero_le _) hnil
    refine ⟨addrState s .digd s.iface.nd 0 (ceilDiv s.iface.nd 2), ?_, (keepsAt_addrEncode _ _ _ _ s).ok _ hr, ?_, rfl⟩
    · rw [encAddrBody, hr, run_bind_ok, writtenBytes, pairBytes_length]
      rfl
    · rw [writtenBytes, pairBytes_length]
      exact (addrErrors_eq_nil.1 hnil).1

theorem pack7Body_ends {s : State} (ha : s.Apart) :
    BodyEnds s (s.errors .pack7) (writtenBytes .pack7 s) (pack7Body s) where
  raises e he := by
    have hr := septetPack_raises ha (le_refl s.iface.cap) (Nat.zero_le _) he
    exact ⟨s, by rw [pack7Body, hr, run_bind_error], .refl s⟩
  finishes hnil := by
    have hr := septetPack_writes ha (le_refl s.iface.cap) (Nat.zero_le _) hnil
    refine ⟨septetDone s 0, ?_, (keepsAt_septetPack _ _ s).ok _ hr, ?_, rfl⟩
    · rw [pack7Body, hr, run_bind_ok, writtenBytes, septetBytes_length]
      rfl
    · rw [writtenBytes, septetBytes_length]
      exact (textErrors_eq_nil.1 hnil).2

theorem asmPduBody_ends {smsc : Bool} {s : State} (ha : s.Apart) (hw : s.tr.w = 0) :
    BodyEnds s (s.errors (.asmpdu smsc)) (writtenBytes (.asmpdu smsc) s) (asmPduBody smsc s) where
  raises e he := by
    obtain ⟨s', hr, k⟩ := (writes_asmPduStages ha hw).raises e he
    exact ⟨s', by rw [asmPduBody_eq, hr, run_bind_error], k⟩
  finishes hnil := by
    obtain ⟨s', hr, w⟩ := (writes_asmPduStages ha hw).writes hnil
    have hlen : s'.tr.w = (pduWritten smsc s).length := by rw [w.w, hw, Nat.zero_add]
    refine ⟨s'.setStage .done, by rw [asmPduBody_eq, hr, run_bind_ok, hlen]; rfl, w.kept.setTr _, ?_, ?_⟩
    · rw [writtenBytes, ← hlen, ← w.kept.iface]
      exact w.fits
    · rw [setStage_mem, w.mem, hw]
      rfl

/-- What a command answers in `t`, accepted in `s`: the kind picked from those that apply; or, where none applies, its bytes in
OUT[0 .. LEN-1] (R184, R185). -/
structure Answers (i : Instr) (s t : State) : Prop where
  ended : Ended s t
  raised : ∀ e, pickFrom s.draws (s.errors i) = some e →
    t.status = e.status ∧ t.len = s.field (Config.freeLen s.draws)
  ok : s.errors i = [] → t.status = .ok ∧ t.len = (writtenBytes i s).length ∧ t.len ≤ s.iface.cap
  bytes : s.errors i = [] → ∀ k v, (writtenBytes i s)[k]? = some v → t.outByte k = v

/-- A body that ends well or by an error gives the answer. -/
theorem BodyEnds.answers {i : Instr} {s : State} {r : Run State} (h : BodyEnds s (s.errors i) (writtenBytes i s) r) :
    ∃ t, conclude r = .next t ∧ Answers i s t := by
  cases hp : pickFrom s.draws (s.errors i) with
  | some e =>
    have hne : s.errors i ≠ [] := fun hn => by simp [hn, pickFrom] at hp
    obtain ⟨s', rfl, k⟩ := h.raises e hp
    refine ⟨_, rfl, k.raiseError e, fun e' he => ?_, fun hn => absurd hn hne, fun hn => absurd hn hne⟩
    rw [hp] at he
    cases he
    exact ⟨rfl, by rw [raiseError_len, k.draws, State.field, k.params]; rfl⟩
  | none =>
    have hn := pickFrom_eq_none.1 hp
    obtain ⟨s', rfl, k, hcap, hmem⟩ := h.finishes hn
    refine ⟨_, rfl, k.finish _, fun e he => ?_, fun _ => ⟨rfl, rfl, hcap⟩, fun _ j v hj => ?_⟩
    · rw [hp] at he
      cases he
    · obtain ⟨hlt, rfl⟩ := List.getElem?_eq_some_iff.1 hj
      rw [State.outByte, finish_place, finish_mem, read_fillFree_other _ _ _ _ _ (by omega), hmem, k.place]
      exact read_stored _ _ _ hlt

/-! ### Results depend on the operands only -/

section sameOperands
variable {s s' : State}

theorem SameOperands.asmpdu_input {smsc : Bool} (h : SameOperands (.asmpdu smsc) s s') :
    (smsc = true → SameInput s s' .digs) ∧ SameInput s s' .digd ∧ SameInput s s' .txt := by
  refine ⟨fun hs => ?_, h.inputs .digd ?_, h.inputs .txt ?_⟩
  · subst hs
    exact h.inputs .digs (by simp [reads])
  · cases smsc <;> simp [reads]
  · cases smsc <;> simp [reads]

theorem SameOperands.posA {smsc : Bool} (h : SameOperands (.asmpdu smsc) s s') : s.iface.posA smsc = s'.iface.posA smsc := by
  cases smsc with
  | false => rfl
  | true =>
    have hns : s.iface.ns = s'.iface.ns := (h.asmpdu_input.1 rfl).1
    simp only [Iface.posA, hns]

theorem SameOperands.nd {smsc : Bool} (h : SameOperands (.asmpdu smsc) s s') : s.iface.nd = s'.iface.nd := h.asmpdu_input.2.1.1

theorem SameOperands.posB {smsc : Bool} (h : SameOperands (.asmpdu smsc) s s') : s.iface.posB smsc = s'.iface.posB smsc := by
  simp only [Iface.posB, h.posA, h.nd]

theorem SameOperands.stageBytes {smsc : Bool} (h : SameOperands (.asmpdu smsc) s s') (st : Stage) :
    stageBytes smsc st s = stageBytes smsc st s' := by
  have hcfg := h.cfg ⟨smsc, rfl⟩
  obtain ⟨hs, -, ht⟩ := h.asmpdu_input
  cases st with
  | smsc =>
    cases smsc with
    | false => rfl
    | true =>
      have hns : s.iface.ns = s'.iface.ns := (hs rfl).1
      simp only [Machine.stageBytes, hns, hcfg]
  | header => simp only [Machine.stageBytes, hcfg]
  | dest => simp only [Machine.stageBytes, hcfg, h.nd]
  | consts => simp only [Machine.stageBytes, hcfg]
  | udl => simp only [Machine.stageBytes, ht.nt]
  | text => rfl
  | done => rfl

theorem SameOperands.smscWritten {smsc : Bool} (h : SameOperands (.asmpdu smsc) s s') :
    smscWritten smsc s = smscWritten smsc s' := by
  simp only [Laws.smscWritten, h.stageBytes]
  cases smsc with
  | false => rfl
  | true =>
    have hs := h.asmpdu_input.1 rfl
    have hns : s.iface.ns = s'.iface.ns := hs.1
    have hb : pairBytes s .digs s.iface.ns _ = _ := hs.pairBytes (le_refl _)
    rw [hb, hns]

theorem SameOperands.smscChecks {smsc : Bool} (h : SameOperands (.asmpdu smsc) s s') :
    smscChecks smsc s = smscChecks smsc s' := by
  simp only [Laws.smscChecks, State.emitErrors, h.cap]
  cases smsc with
  | false => rfl
  | true =>
    have hs := h.asmpdu_input.1 rfl
    have hns : s.iface.ns = s'.iface.ns := hs.1
    have he : ∀ capr, s.addrErrors .digs s.iface.ns capr = _ := fun _ => hs.addrErrors (le_refl _)
    rw [he, hns]

/-- The kinds a command may report depend on its operands only. -/
theorem SameOperands.errors {i : Instr} (h : SameOperands i s s') : s.errors i = s'.errors i := by
  have addr : ∀ capr, SameInput s s' .digd →
      s.addrErrors .digd s.iface.nd capr = s'.addrErrors .digd s'.iface.nd capr := fun capr hd => by
    have hnd : s.iface.nd = s'.iface.nd := hd.1
    rw [← hnd]
    exact hd.addrErrors (le_refl _)
  cases i with
  | encaddr =>
    simp only [State.errors, ← h.cap]
    exact addr _ (h.inputs .digd (by simp [reads]))
  | pack7 =>
    simp only [State.errors, ← h.cap]
    exact (h.inputs .txt (by simp [reads])).textErrors
  | asmpdu smsc =>
    obtain ⟨-, hd, ht⟩ := h.asmpdu_input
    simp only [errors_asmpdu, pduChecks, h.smscChecks, h.posA, h.posB, State.emitErrors, h.cap, addr _ hd, ht.textErrors]

/-- The bytes a command writes depend on its operands and the configuration only. -/
theorem SameOperands.writtenBytes {i : Instr} (h : SameOperands i s s') : writtenBytes i s = writtenBytes i s' := by
  have addr : SameInput s s' .digd → pairBytes s .digd s.iface.nd (ceilDiv s.iface.nd 2) =
      pairBytes s' .digd s'.iface.nd (ceilDiv s'.iface.nd 2) := fun hd => by
    have hnd : s.iface.nd = s'.iface.nd := hd.1
    rw [← hnd]
    exact hd.pairBytes (le_refl _)
  cases i with
  | encaddr => exact addr (h.inputs .digd (by simp [reads]))
  | pack7 => exact (h.inputs .txt (by simp [reads])).septetBytes
  | asmpdu smsc =>
    obtain ⟨-, hd, ht⟩ := h.asmpdu_input
    simp only [Laws.writtenBytes, pduWritten, h.smscWritten, h.stageBytes, addr hd, ht.septetBytes]

end sameOperands

/-! ### What a command answers -/

/-- The start values of the transient registers play no part in the answer. -/
theorem Answers.of_started {i : Instr} {s t : State} (h : Answers i (started i s) t) : Answers i s t := by
  obtain ⟨hend, hraised, hok, hbytes⟩ := h
  rw [← (sameOperands_started i s).errors] at hraised hok hbytes
  rw [← (sameOperands_started i s).writtenBytes] at hok hbytes
  exact ⟨⟨hend.mode, hend.cfg, hend.iface, hend.place, hend.params, hend.requests, hend.draws, hend.outside, hend.wf⟩,
    hraised, hok, hbytes⟩

/-- All that an accepted command does. -/
theorem exec_of_accepts {i : Instr} {s : State} (h : s.accepts i) : ∃ t, exec i s = .next t ∧ Answers i s t := by
  have ha : (started i s).Apart := apart_started i h.2.2
  obtain ⟨t, ht, hans⟩ : ∃ t, exec i s = .next t ∧ Answers i (started i s) t := by
    cases i with
    | encaddr => rw [exec_encaddr, transact_of_accepts h]; exact (encAddrBody_ends ha).answers
    | pack7 => rw [exec_pack7, transact_of_accepts h]; exact (pack7Body_ends ha).answers
    | asmpdu smsc => rw [exec_asmpdu, transact_of_accepts h]; exact (asmPduBody_ends ha rfl).answers
  exact ⟨t, ht, hans.of_started⟩

/-- A command that something refuses does nothing else. -/
theorem exec_of_refusal {i : Instr} {s : State} {r : Refusal} (h : refusal? i s = some r) : exec i s = .refused r := by
  cases i with
  | encaddr => exact transact_of_refusal h
  | pack7 => exact transact_of_refusal h
  | asmpdu smsc => exact transact_of_refusal h

/-- All that a command can do. -/
theorem exec_cases (i : Instr) (s : State) :
    (¬ s.accepts i ∧ ∃ r, exec i s = .refused r) ∨ (s.accepts i ∧ ∃ t, exec i s = .next t ∧ Answers i s t) := by
  cases h : refusal? i s with
  | some r => exact .inl ⟨fun ha => by simp [refusal?_eq_none.2 ha] at h, r, exec_of_refusal h⟩
  | none => exact .inr ⟨refusal?_eq_none.1 h, exec_of_accepts (refusal?_eq_none.1 h)⟩

/-- A command ends with OK exactly where no check fails. -/
theorem Answers.status_ok_iff {i : Instr} {s t : State} (h : Answers i s t) : t.status = .ok ↔ s.errors i = [] := by
  refine ⟨fun hok => ?_, fun hn => (h.ok hn).1⟩
  cases hp : pickFrom s.draws (s.errors i) with
  | none => exact pickFrom_eq_none.1 hp
  | some e => exact absurd ((h.raised e hp).1.symm.trans hok) (errKind_status_ne_ok e)

/-- LEN is a value of CAP_W bits. -/
theorem Answers.len_lt {i : Instr} {s t : State} (h : Answers i s t) (hcap : s.iface.cap < 2 ^ s.params.capW) :
    t.len < 2 ^ s.params.capW := by
  cases hp : pickFrom s.draws (s.errors i) with
  | none => exact (h.ok (pickFrom_eq_none.1 hp)).2.2.trans_lt hcap
  | some e =>
    rw [(h.raised e hp).2]
    exact Nat.mod_lt _ (Nat.two_pow_pos _)

/-- Each byte below LEN is the one of `writtenBytes`. -/
theorem Answers.getElem?_eq {i : Instr} {s t : State} (h : Answers i s t) (hn : s.errors i = []) {k : Nat} (hk : k < t.len) :
    (writtenBytes i s)[k]? = some (t.outByte k) := by
  rw [(h.ok hn).2.1] at hk
  rw [h.bytes hn k _ (List.getElem?_eq_getElem hk), List.getElem?_eq_getElem hk]

/-- Settles O15: an accepted command is answered in IDLE, and one that is not accepted has a reason of refusal. -/
theorem acceptedCommandEnds : Obligations.AcceptedCommandEnds := by
  unfold Obligations.AcceptedCommandEnds
  intro i s
  obtain ⟨hna, r, hr⟩ | ⟨ha, t, ht, hans⟩ := exec_cases i s
  · exact ⟨fun ha => absurd ha hna, fun _ => ⟨r, hr⟩⟩
  · exact ⟨fun _ => ⟨t, ht, hans.ended.mode⟩, fun hna => absurd ha hna⟩

/-- Settles O33: the kinds that apply and the bytes written are functions of the operands and the configuration, and the kind picked
is one of the number of draws besides. -/
theorem resultDependsOnOperandsOnly : Obligations.ResultDependsOnOperandsOnly := by
  unfold Obligations.ResultDependsOnOperandsOnly
  intro i s s' t ha ha' hcap hcfg hin ht
  have same : SameOperands i s s' := ⟨hcap, hcfg, hin⟩
  obtain ⟨u, hu, ans⟩ := exec_of_accepts ha
  obtain ⟨t', ht', ans'⟩ := exec_of_accepts ha'
  cases hu.symm.trans ht
  refine ⟨t', ht', ?_, fun hok => ?_, fun e he => ⟨?_, ?_⟩, fun hd => ?_⟩
  · rw [ans.status_ok_iff, ans'.status_ok_iff, same.errors]
  · have hn := ans.status_ok_iff.1 hok
    have hn' : s'.errors i = [] := by rwa [← same.errors]
    have hlen : t.len = t'.len := by rw [(ans.ok hn).2.1, (ans'.ok hn').2.1, same.writtenBytes]
    refine ⟨hlen, fun k hk => (ans'.bytes hn' k _ ?_).symm⟩
    rw [← same.writtenBytes]
    exact ans.getElem?_eq hn hk
  · exact (ans.raised e (by rw [he]; rfl)).1
  · exact (ans'.raised e (by rw [← same.errors, he]; rfl)).1
  · cases hp : pickFrom s.draws (s.errors i) with
    | none =>
      have hn := pickFrom_eq_none.1 hp
      rw [(ans.ok hn).1, (ans'.ok (by rwa [← same.errors])).1]
    | some e => rw [(ans.raised e hp).1, (ans'.raised e (by rw [← same.errors, ← hd]; exact hp)).1]

/-! ### ASMPDU copies the configuration registers -/

/-- With digit strings, a text of at most 160 septets and CAP >= T, no check of ASMPDU fails (R164). -/
theorem errors_asmpdu_eq_nil {smsc : Bool} {s : State} (hs : smsc = true → s.DigitString .digs s.iface.ns)
    (hd : s.DigitString .digd s.iface.nd) (ht : s.iface.nt ≤ 160) (hT : s.iface.posT smsc ≤ s.iface.cap) :
    s.errors (.asmpdu smsc) = [] := by
  have hB : s.iface.posB smsc = s.iface.posA smsc + 4 + ceilDiv s.iface.nd 2 := rfl
  rw [Iface.posT] at hT
  rw [errors_asmpdu, firstFailing_eq_nil]
  simp only [pduChecks, smscChecks, List.forall_mem_append, List.forall_mem_singleton, emitErrors_eq_nil, addrErrors_eq_nil,
    textErrors_eq_nil]
  refine ⟨?_, by omega, ⟨by omega, by omega, hd⟩, by omega, by omega, ht, by omega⟩
  cases smsc with
  | false =>
    have hA : s.iface.posA false = 1 := rfl
    exact ⟨show 1 ≤ s.iface.cap by omega, rfl⟩
  | true =>
    have hA : s.iface.posA true = 2 + ceilDiv s.iface.ns 2 := rfl
    exact ⟨show 2 ≤ s.iface.cap by omega, addrErrors_eq_nil.2 ⟨by omega, hs rfl⟩⟩

/-- Past `xs` an index counts on into `ys`. -/
theorem getElem?_append_length_add {α : Type} (xs ys : List α) (k : Nat) : (xs ++ ys)[xs.length + k]? = ys[k]? := by
  rw [List.getElem?_append_right (Nat.le_add_right _ _), Nat.add_sub_cancel_left]

/-- The bytes from A of the layout on (R152). -/
theorem pduWritten_from_posA (smsc : Bool) (s : State) (k : Nat) :
    (pduWritten smsc s)[s.iface.posA smsc + k]? =
      ([s.cfg.mti, Config.messageReference, trunc8 s.iface.nd, s.cfg.toa] ++
        (pairBytes s .digd s.iface.nd (ceilDiv s.iface.nd 2) ++
          ([s.cfg.pid, s.cfg.dcs, s.cfg.vp] ++ (stageBytes smsc .udl s ++ septetBytes s))))[k]? := by
  rw [pduWritten, ← smscWritten_length, getElem?_append_length_add]
  simp [stageBytes]

/-- The bytes from B of the layout on (R152). -/
theorem pduWritten_from_posB (smsc : Bool) (s : State) (k : Nat) :
    (pduWritten smsc s)[s.iface.posB smsc + k]? =
      ([s.cfg.pid, s.cfg.dcs, s.cfg.vp] ++ (stageBytes smsc .udl s ++ septetBytes s))[k]? := by
  rw [Iface.posB, Nat.add_assoc, Nat.add_assoc, pduWritten_from_posA]
  rw [show 4 = [s.cfg.mti, Config.messageReference, trunc8 s.iface.nd, s.cfg.toa].length from rfl,
    getElem?_append_length_add]
  have := getElem?_append_length_add (pairBytes s .digd s.iface.nd (ceilDiv s.iface.nd 2))
    ([s.cfg.pid, s.cfg.dcs, s.cfg.vp] ++ (stageBytes smsc .udl s ++ septetBytes s)) k
  rwa [pairBytes_length] at this

/-- With an SMSC, OUT[1] is the type of address (R153). -/
theorem pduWritten_one (s : State) : (pduWritten true s)[1]? = some s.cfg.toa := rfl

/-- A write of any byte to a configuration register in IDLE, read back (R28). -/
theorem step_cfgWrite_idle {s : State} {r : CfgReg} {v : Byte} {rest : List Request} (hm : s.mode = .idle)
    (hq : s.requests = .cfgWrite r v :: rest) : step s = .next ((s.setRequests rest).setCfg (s.cfg.set r v)) := by
  rw [step_cons hq]
  simp [serve, serveCfgWrite, hm]

theorem cfgRead_idle {s : State} (hm : s.mode = .idle) (r : CfgReg) : s.cfgRead r = some (s.cfg.get r) := by
  simp [State.cfgRead, hm]

/-- Settles O34: the register holds what was written, and each register stands unchanged at its place of `pduWritten`. -/
theorem configWriteReadsBack : Obligations.ConfigWriteReadsBack := by
  unfold Obligations.ConfigWriteReadsBack
  constructor
  · intro s r v rest hm hq
    have hm' : ((s.setRequests rest).setCfg (s.cfg.set r v)).mode = .idle := hm
    refine ⟨_, step_cfgWrite_idle hm hq, ?_, fun q hne => ?_, rfl⟩
    · rw [cfgRead_idle hm', setCfg_cfg, cfg_get_set]
    · rw [cfgRead_idle hm', cfgRead_idle hm, setCfg_cfg, cfg_get_set_other _ _ _ _ hne]
  · intro smsc s ha hs hd ht hT
    obtain ⟨t, hexec, ans⟩ := exec_of_accepts ha
    have byte := ans.bytes (errors_asmpdu_eq_nil hs hd ht hT)
    refine ⟨t, hexec, fun h => byte 1 _ ?_, byte _ _ (pduWritten_from_posA smsc s 0),
      byte _ _ (pduWritten_from_posA smsc s 3), byte _ _ (pduWritten_from_posB smsc s 0),
      byte _ _ (pduWritten_from_posB smsc s 1), byte _ _ (pduWritten_from_posB smsc s 2)⟩
    subst h
    exact pduWritten_one s

end Sys2Proof.Laws
end

section
/-! PROOFS. The invariant of the machine: it holds at reset, every step keeps it, and from it no step faults. A step is one of three things: a
write at the interface, a command accepted or run, or a small step of the running operation. -/

namespace Sys2Proof.Laws

open Sys2Proof.Machine

/-! ### What the invariant asks -/

/-- In IDLE the invariant asks nothing of the transient registers. -/
theorem inv_of_idle {s : State} (hm : s.mode = .idle) (hmem : s.mem.wf) (hp : s.params.wf) (hf : s.FieldsFit) : s.Inv :=
  ⟨hmem, hp, hf, by rw [hm]; trivial⟩

theorem inv_of_running {s : State} {op : Instr} (hm : s.mode = .running op) (hmem : s.mem.wf) (hp : s.params.wf)
    (hf : s.FieldsFit) (hr : s.RunningOk op) : s.Inv :=
  ⟨hmem, hp, hf, by rw [hm]; exact hr⟩

theorem runningOk_of_inv {s : State} {op : Instr} (h : s.Inv) (hm : s.mode = .running op) : s.RunningOk op := by
  obtain ⟨-, -, -, hr⟩ := h
  rwa [hm] at hr

theorem cap_lt_of_inv {s : State} (h : s.Inv) : s.iface.cap < 2 ^ s.params.capW := by
  obtain ⟨-, -, ⟨-, -, -, hcap, -⟩, -⟩ := h
  exact hcap

theorem inv_setRequests {s : State} (h : s.Inv) (rs : List Request) : (s.setRequests rs).Inv := h

/-- No clause but the canonical form speaks of memory. -/
theorem inv_setMem {s : State} (h : s.Inv) {m : Memory} (hm : m.wf) : (s.setMem m).Inv := ⟨hm, h.2⟩

theorem field_lt (s : State) (v : Nat) : s.field v < 2 ^ s.params.capW := Nat.mod_lt _ (Nat.two_pow_pos _)

/-- An operation that ends with LEN in its width leaves the invariant. -/
theorem Ended.inv {s t : State} (h : Ended s t) (hs : s.Inv) (hlen : t.len < 2 ^ s.params.capW) : t.Inv := by
  obtain ⟨hmem, hp, ⟨hns, hnd, hnt, hcap, -⟩, -⟩ := hs
  refine inv_of_idle h.mode (h.wf hmem) (h.params ▸ hp) ?_
  rw [State.FieldsFit, h.iface, h.params]
  exact ⟨hns, hnd, hnt, hcap, hlen⟩

/-- A part of an operation after which it is still sequenced leaves the invariant. -/
theorem Kept.inv {s t : State} {op : Instr} (k : Kept s t) (hs : s.Inv) (hm : s.mode = .running op) (hq : t.Sequenced op) :
    t.Inv := by
  obtain ⟨hcmd, hfit, hap, -⟩ := runningOk_of_inv hs hm
  obtain ⟨hmem, hp, hf, -⟩ := hs
  refine inv_of_running (k.mode.trans hm) (k.wf hmem) (k.params ▸ hp) ?_ ⟨by rwa [k.iface], ?_, k.apart hap, hq⟩
  · rw [State.FieldsFit, k.iface, k.params, k.len]
    exact hf
  · cases op <;> simp only [State.DigitsFit, k.iface, k.params] <;> exact hfit

/-! ### Small steps -/

/-- All that a small step can do where the invariant holds. -/
theorem conclude_microStep {s : State} (h : s.Inv) : ∃ t, conclude (microStep s) = .next t ∧ t.Inv := by
  cases hm : s.mode with
  | idle => exact ⟨s, by rw [microStep_idle hm]; rfl, h⟩
  | running op =>
    rw [microStep_running hm]
    obtain ⟨-, -, -, hseq⟩ := runningOk_of_inv h hm
    obtain ⟨s', hr, k, hq⟩ | ⟨s', n, hr, k, hn⟩ | ⟨e, s', hr, k⟩ := runStep_of_sequenced hseq
    · exact ⟨s', by rw [hr]; rfl, k.inv h hm hq⟩
    · exact ⟨_, by rw [hr]; rfl, (k.finish n).inv h (hn.trans_lt (cap_lt_of_inv h))⟩
    · refine ⟨_, by rw [hr]; rfl, (k.raiseError e).inv h ?_⟩
      rw [raiseError_len, ← k.params]
      exact field_lt s' _

/-! ### Actions at the interface -/

/-- What an action may answer where the invariant holds: a next state where it holds, or a refusal. -/
def ServesWell (o : Host.Outcome State Fault Refusal) : Prop := (∃ t, o = .next t ∧ t.Inv) ∨ ∃ r, o = .refused r

theorem servesWell_of_mode {s t : State} {r : Refusal} (h : s.mode = .idle → t.Inv) :
    ServesWell (if s.mode.isRunning then .refused r else .next t) := by
  cases hm : s.mode with
  | idle => exact .inl ⟨t, rfl, h hm⟩
  | running op => exact .inr ⟨r, rfl⟩

theorem inv_setInput {s : State} (h : s.Inv) (hm : s.mode = .idle) (sp : InSpace) (base len : Nat) :
    (s.setInput sp base len).Inv := by
  obtain ⟨hmem, hp, ⟨hns, hnd, hnt, hcap, hlen⟩, -⟩ := h
  cases sp with
  | digs => exact inv_of_idle hm hmem hp ⟨field_lt s len, hnd, hnt, hcap, hlen⟩
  | digd => exact inv_of_idle hm hmem hp ⟨hns, field_lt s len, hnt, hcap, hlen⟩
  | txt => exact inv_of_idle hm hmem hp ⟨hns, hnd, field_lt s len, hcap, hlen⟩

theorem inv_setOut {s : State} (h : s.Inv) (hm : s.mode = .idle) (base cap : Nat) : (s.setOut base cap).Inv := by
  obtain ⟨hmem, hp, ⟨hns, hnd, hnt, -, hlen⟩, -⟩ := h
  exact inv_of_idle hm hmem hp ⟨hns, hnd, hnt, field_lt s cap, hlen⟩

/-- Writing CMD in IDLE leaves the invariant. -/
theorem inv_setCmd {s : State} (h : s.Inv) (hm : s.mode = .idle) (b : Byte) : (s.setCmd b).Inv := by
  obtain ⟨hmem, hp, hf, -⟩ := h
  exact inv_of_idle hm hmem hp hf

theorem inv_blockReset {s : State} (h : s.Inv) : (blockReset s).Inv := by
  obtain ⟨hmem, hp, -, -⟩ := h
  refine inv_of_idle rfl ?_ hp ⟨field_lt s _, field_lt s _, field_lt s _, field_lt s _, field_lt s _⟩
  rw [blockReset_mem, State.memAfterReset]
  split
  · exact hmem
  · exact wf_fillFree _ _ _ _ hmem

/-- The start of an accepted command: its registers are sequenced (R202). -/
theorem sequenced_started (i : Instr) (s : State) : (started i s).Sequenced i := by
  cases i with
  | encaddr => trivial
  | pack7 => trivial
  | asmpdu smsc => exact ⟨rfl, Nat.zero_le _⟩

theorem inv_started {i : Instr} {s : State} (h : s.Inv) (hcmd : decode s.iface.cmd = .ok i) (ha : s.accepts i) :
    (started i s).Inv := by
  obtain ⟨hmem, hp, hf, -⟩ := h
  obtain ⟨-, hfit, hap⟩ := ha
  refine inv_of_running rfl hmem hp hf ⟨hcmd, ?_, apart_started i hap, sequenced_started i s⟩
  cases i <;> exact hfit

theorem exec_servesWell {i : Instr} {s : State} (h : s.Inv) : ServesWell (exec i s) := by
  obtain ⟨-, r, hr⟩ | ⟨-, t, ht, hans⟩ := exec_cases i s
  · exact .inr ⟨r, hr⟩
  · exact .inl ⟨t, ht, hans.ended.inv h (hans.len_lt (cap_lt_of_inv h))⟩

theorem serveIssue_servesWell {s : State} (h : s.Inv) (b : Byte) : ServesWell (serveIssue b s) := by
  cases hd : decode b with
  | error e => exact .inr ⟨_, by rw [serveIssue, hd]⟩
  | ok i =>
    rw [serveIssue_of_decode hd]
    obtain ⟨-, r, hr⟩ | ⟨ha, -⟩ := exec_cases i (s.setCmd b)
    · exact .inr ⟨r, hr⟩
    · exact exec_servesWell (inv_setCmd h ha.1 b)

theorem serveIssueNoWait_servesWell {s : State} (h : s.Inv) (b : Byte) : ServesWell (serveIssueNoWait b s) := by
  unfold serveIssueNoWait
  cases hd : decode b with
  | error e => exact .inr ⟨_, rfl⟩
  | ok i =>
    simp only [accept]
    cases hr : refusal? i (s.setCmd b) with
    | some r => exact .inr ⟨r, rfl⟩
    | none =>
      have ha := refusal?_eq_none.1 hr
      exact .inl ⟨_, rfl, inv_started (inv_setCmd h ha.1 b) hd ha⟩

/-- Every action at the interface, where the invariant holds. -/
theorem serve_servesWell {s : State} (h : s.Inv) (r : Request) : ServesWell (serve r s) := by
  cases r with
  | cfgWrite reg v => exact servesWell_of_mode fun _ => h
  | setInput sp base len => exact servesWell_of_mode fun hm => inv_setInput h hm sp base len
  | setOut base cap => exact servesWell_of_mode fun hm => inv_setOut h hm base cap
  | memWrite a v =>
    simp only [serve, serveMemWrite]
    split
    · exact .inr ⟨_, rfl⟩
    · exact .inl ⟨_, rfl, inv_setMem h (wf_write h.1 a v)⟩
  | memRead a =>
    simp only [serve, serveMemRead]
    split
    · exact .inr ⟨_, rfl⟩
    · exact .inl ⟨_, rfl, h⟩
  | issue b => exact serveIssue_servesWell h b
  | issueNoWait b => exact serveIssueNoWait_servesWell h b
  | tick => exact .inl (conclude_microStep h)
  | reset => exact .inl ⟨_, rfl, inv_blockReset h⟩

/-- All that a step can do where the invariant holds. -/
theorem step_servesWell {s : State} (h : s.Inv) : ServesWell (step s) := by
  cases hq : s.requests with
  | nil =>
    rw [step_nil hq]
    exact .inl (conclude_microStep h)
  | cons r rest =>
    rw [step_cons hq]
    exact serve_servesWell (inv_setRequests h rest) r

/-- Settles O9: every answer of a step meets the invariant, action by action. -/
theorem invKeptByEveryStep : Obligations.InvKeptByEveryStep := by
  unfold Obligations.InvKeptByEveryStep
  intro s t h ht
  obtain ⟨t', ht', hinv⟩ | ⟨r, hr⟩ := step_servesWell h
  · cases ht'.symm.trans ht
    exact hinv
  · cases hr.symm.trans ht

/-- Settles O10: a step either answers a next state or is refused, so it is no fault. -/
theorem invStepNeverFaults : Obligations.InvStepNeverFaults := by
  unfold Obligations.InvStepNeverFaults
  intro s f h hf
  obtain ⟨t, ht, -⟩ | ⟨r, hr⟩ := step_servesWell h
  · cases ht.symm.trans hf
  · cases hr.symm.trans hf

/-- Settles O8: at reset the block is IDLE, memory is empty, and the fields hold zero. -/
theorem invHoldsAtReset : Obligations.InvHoldsAtReset := by
  unfold Obligations.InvHoldsAtReset
  exact inv_of_idle rfl wf_nil (by decide) (by unfold State.FieldsFit; decide)

/-! ### Inside SeptetPack -/

/-- Where the invariant holds inside SeptetPack, P and I are as the bytes written say (R33). -/
theorem inSeptets_of_inv {s : State} {op : Instr} (h : s.Inv) (hm : s.mode = .running op) (hu : s.tr.unit = .septetPack) :
    ∃ base, s.InSeptets base := by
  obtain ⟨-, -, -, hq⟩ := runningOk_of_inv h hm
  cases op with
  | encaddr => simp [State.Sequenced, hu] at hq
  | pack7 =>
    simp only [State.Sequenced, hu] at hq
    exact ⟨_, hq⟩
  | asmpdu smsc =>
    simp only [State.Sequenced, hu] at hq
    obtain ⟨-, -, hin⟩ := hq
    exact ⟨_, hin⟩

theorem nextPhase_o (t : Transient) : (nextPhase t).o = t.o + 1 := by
  unfold nextPhase
  split <;> rfl

theorem nextPhase_i (t : Transient) : (nextPhase t).i = if t.p.toNat = 7 then t.i + 2 else t.i + 1 := by
  unfold nextPhase
  by_cases hp : t.p.toNat = 7
  · rw [if_pos (by omega), if_pos hp]
  · rw [if_neg (by omega), if_neg hp]

/-- Settles O44: the step is a turn of the main pass, and its registers are those of one byte more (R127). -/
theorem phaseFollowsBytesWritten : Obligations.PhaseFollowsBytesWritten := by
  unfold Obligations.PhaseFollowsBytesWritten
  intro s t op h hm hu hq hpair ht
  obtain ⟨base, hin⟩ := inSeptets_of_inv h hm hu
  obtain ⟨s', hs', htr⟩ := septetIter_of_inSeptets hin hpair
  have hrun : runStep op s = .ok s' := by simp only [runStep, hu, septetStep, if_pos hpair, hs']
  rw [step_nil hq, microStep_running hm, hrun] at ht
  cases ht
  have k := (keepsAt_septetIter s).ok _ hs'
  obtain ⟨-, hp, -⟩ := nextPhase_inSeptets hin hpair k htr
  exact ⟨k.mode.trans hm, hp, by rw [htr, nextPhase_o], by rw [htr, nextPhase_i]⟩

end Sys2Proof.Laws
end

section
/-! PROOFS. STAGE never goes back (10_state.md R34): each part of ASMPDU leaves STAGE as it is, or sets a later one. -/

namespace Sys2Proof.Laws

open Sys2Proof.Machine

/-- A part of an operation that, where it goes on, leaves STAGE as it is. -/
def KeepsStage (s : State) (r : Run State) : Prop := ∀ s', r = .ok s' → s'.tr.stage = s.tr.stage

theorem writeOut_tr {k : Nat} {v : Byte} {s s' : State} (h : writeOut k v s = .ok s') : s'.tr = s.tr := by
  unfold writeOut at h
  split at h
  · cases h
    rfl
  · cases h

theorem emit_keepsStage (v : Byte) (s : State) : KeepsStage s (emit v s) := by
  intro s' h
  unfold emit at h
  split at h
  · cases h
  · obtain ⟨s₁, h₁, h₂⟩ := run_bind_eq_ok.1 h
    cases h₂
    rw [setW_tr, writeOut_tr h₁]

theorem emitAll_keepsStage (vs : List Byte) (s : State) : KeepsStage s (emitAll vs s) := by
  induction vs generalizing s with
  | nil =>
    intro s' h
    cases h
    rfl
  | cons v vs ih =>
    intro s' h
    obtain ⟨s₁, h₁, h₂⟩ := run_bind_eq_ok.1 h
    rw [ih s₁ s' h₂, emit_keepsStage v s s₁ h₁]

theorem addrEnter_keepsStage (src : InSpace) (ndig base capr : Nat) (s : State) :
    KeepsStage s (addrEnter src ndig base capr s) := by
  intro s' h
  obtain ⟨d, -, h₂⟩ := run_bind_eq_ok.1 h
  split at h₂
  · cases h₂
  · cases h₂
    rfl

theorem addrIter_keepsStage (s : State) : KeepsStage s (addrIter s) := by
  intro s' h
  obtain ⟨lo, -, h⟩ := run_bind_eq_ok.1 h
  obtain ⟨hi, -, h⟩ := run_bind_eq_ok.1 h
  obtain ⟨s₁, -, h⟩ := run_bind_eq_ok.1 h
  cases h
  rfl

theorem septetEnter_keepsStage (base capr : Nat) (s : State) : KeepsStage s (septetEnter base capr s) := by
  intro s' h
  unfold septetEnter at h
  split at h
  · cases h
  · cases h
    rfl

theorem nextPhase_stage (t : Transient) : (nextPhase t).stage = t.stage := by
  unfold nextPhase
  split <;> rfl

theorem septetIter_keepsStage (s : State) : KeepsStage s (septetIter s) := by
  intro s' h
  obtain ⟨a, -, h⟩ := run_bind_eq_ok.1 h
  obtain ⟨b, -, h⟩ := run_bind_eq_ok.1 h
  obtain ⟨s₁, -, h⟩ := run_bind_eq_ok.1 h
  cases h
  exact nextPhase_stage s.tr

theorem septetLeftover_keepsStage (s : State) : KeepsStage s (septetLeftover s) := by
  intro s' h
  unfold septetLeftover at h
  split at h
  · obtain ⟨a, -, h⟩ := run_bind_eq_ok.1 h
    obtain ⟨s₁, -, h⟩ := run_bind_eq_ok.1 h
    cases h
    rfl
  · cases h
    rfl

/-- A part of ASMPDU that, where it goes on and the operation still runs, leaves STAGE at the same number or a greater one. -/
def StageAdvances (s : State) (r : Run State) : Prop :=
  ∀ s', r = .ok s' → s'.mode ≠ .idle → s.tr.stage.number ≤ s'.tr.stage.number

theorem KeepsStage.advances {s : State} {r : Run State} (h : KeepsStage s r) : StageAdvances s r :=
  fun s' hr _ => by rw [h s' hr]

/-- After a part that leaves STAGE as it is. -/
theorem KeepsStage.bind_advances {s : State} {r : Run State} {g : State → Run State} (h : KeepsStage s r)
    (hg : ∀ s', s'.tr.stage = s.tr.stage → StageAdvances s' (g s')) : StageAdvances s (r >>= g) := by
  intro s' hr hm
  obtain ⟨s₁, h₁, h₂⟩ := run_bind_eq_ok.1 hr
  rw [← h s₁ h₁]
  exact hg s₁ (h s₁ h₁) s' h₂ hm

/-- A stage set no lower than it stands. -/
theorem stageAdvances_setStage {s s' : State} {st : Stage} (h : s.tr.stage.number ≤ st.number) :
    StageAdvances s (.ok (s'.setStage st)) := by
  intro t ht _
  cases ht
  exact h

theorem stageAfter_advances (smsc : Bool) (s : State) : StageAdvances s (stageAfter smsc s.tr.stage s) := by
  cases hst : s.tr.stage with
  | smsc =>
    cases smsc with
    | false => exact stageAdvances_setStage (by rw [hst]; decide)
    | true => exact (addrEnter_keepsStage _ _ _ _ s).advances
  | header => exact stageAdvances_setStage (by rw [hst]; decide)
  | dest => exact (addrEnter_keepsStage _ _ _ _ s).advances
  | consts => exact stageAdvances_setStage (by rw [hst]; decide)
  | udl => exact stageAdvances_setStage (by rw [hst]; decide)
  | text => exact (septetEnter_keepsStage _ _ s).advances
  | done =>
    intro t ht hm
    cases ht
    exact absurd rfl hm

theorem addrEnd_advances (smsc : Bool) (s : State) : StageAdvances s (addrEnd (.asmpdu smsc) s) := by
  unfold addrEnd
  split
  · rename_i h
    cases h
  · rename_i hst
    exact stageAdvances_setStage (by rw [hst]; decide)
  · rename_i hst
    exact stageAdvances_setStage (by rw [hst]; decide)
  · intro t ht
    cases ht

theorem septetEnd_advances (smsc : Bool) (s : State) : StageAdvances s (septetEnd (.asmpdu smsc) s) := by
  unfold septetEnd
  split
  · rename_i h
    cases h
  · rename_i hst
    exact stageAdvances_setStage (by rw [hst]; decide)
  · intro t ht
    cases ht

/-- The stages of ASMPDU come in order, with no branching back (R34, R151). -/
theorem runStep_asmpdu_advances (smsc : Bool) (s : State) : StageAdvances s (runStep (.asmpdu smsc) s) := by
  unfold runStep
  cases s.tr.unit with
  | idle =>
    refine (emitAll_keepsStage (stageBytes smsc s.tr.stage s) s).bind_advances fun s' hs' => ?_
    rw [← hs']
    exact stageAfter_advances smsc s'
  | addrEncode =>
    simp only [addrStep]
    split
    · exact (addrIter_keepsStage s).advances
    · exact addrEnd_advances smsc s
  | septetPack =>
    simp only [septetStep]
    split
    · exact (septetIter_keepsStage s).advances
    · exact (septetLeftover_keepsStage s).bind_advances fun s' _ => septetEnd_advances smsc s'

theorem stage_number_range (st : Stage) : 1 ≤ st.number ∧ st.number ≤ 7 := by cases st <;> decide

/-- A small step after which the operation still runs has gone on. -/
theorem ok_of_conclude_running {r : Run State} {t : State} (h : conclude r = .next t) (hm : t.mode ≠ .idle) : r = .ok t := by
  match r with
  | .ok s => cases h; rfl
  | .error (.raised e s) =>
    cases h
    exact absurd rfl hm
  | .error (.fault f) => cases h

/-- Settles O43: a small step either keeps STAGE or goes on to a later stage. -/
theorem stageNeverGoesBack : Obligations.StageNeverGoesBack := by
  unfold Obligations.StageNeverGoesBack
  intro s t smsc rest _ hm hq ht hmt
  have hne : t.mode ≠ .idle := by rw [hmt]; nofun
  refine ⟨?_, stage_number_range _⟩
  obtain hq | hq := hq
  · rw [step_nil hq, microStep_running hm] at ht
    exact runStep_asmpdu_advances smsc s t (ok_of_conclude_running ht hne) hne
  · have hm' : (s.setRequests rest).mode = .running (.asmpdu smsc) := hm
    rw [step_cons hq, serve, microStep_running hm'] at ht
    exact runStep_asmpdu_advances smsc (s.setRequests rest) t (ok_of_conclude_running ht hne) hne

end Sys2Proof.Laws
end

section
/-! PROOFS. The values after reset, the codes of STATUS, and writes of registers and operand fields at the interface (10_state.md R22,
R24, R29, R39). -/

namespace Sys2Proof.Laws

open Sys2Proof.Machine

/-- Settles O7: the rows of R39, as `State.reset` holds them. -/
theorem resetStateValues : Obligations.ResetStateValues := by
  unfold Obligations.ResetStateValues
  exact ⟨rfl, rfl, rfl, rfl, rfl, rfl, rfl, rfl⟩

/-- Settles O31: the two functions invert each other on the four values. -/
theorem statusCodes : Obligations.StatusCodes := by
  unfold Obligations.StatusCodes
  exact ⟨rfl, rfl, rfl, rfl, status_ofCode_code, by decide⟩

/-- Settles O35: a configuration write is served in IDLE only. -/
theorem configWriteWhileRunningIsRefused : Obligations.ConfigWriteWhileRunningIsRefused := by
  unfold Obligations.ConfigWriteWhileRunningIsRefused
  intro s op r v rest hm hq
  rw [step_cons hq]
  simp [serve, serveCfgWrite, hm]

theorem serveOperands_idle {s : State} (hm : s.mode = .idle) (set : State → State) : serveOperands set s = .next (set s) := by
  simp [serveOperands, hm]

theorem field_of_lt {s : State} {n : Nat} (h : n < 2 ^ s.params.capW) : s.field n = n := Nat.mod_eq_of_lt h

/-- Settles O38: `setInput` and `setOut` write one length field and one place, and a length that fits is kept whole. -/
theorem operandWriteSetsItsField : Obligations.OperandWriteSetsItsField := by
  unfold Obligations.OperandWriteSetsItsField
  intro s sp base n rest hm hn
  constructor
  · intro hq
    refine ⟨(s.setRequests rest).setInput sp base n, ?_, ?_, setInput_inBase _ sp base n, fun q hne => ⟨?_, ?_⟩,
      setInput_cmd _ sp base n, setInput_cap _ sp base n, setInput_out _ sp base n, ?_⟩
    · rw [step_cons hq]
      exact serveOperands_idle (s := s.setRequests rest) hm fun s => s.setInput sp base n
    · rw [setInput_inSize, setRequests_field, field_of_lt hn]
    · rw [setInput_inSize_other _ _ _ _ _ hne, setRequests_inSize]
    · rw [setInput_inBase_other _ _ _ _ _ hne, setRequests_inBase]
    · cases sp <;> rfl
  · intro hq
    have hf : (s.setRequests rest).field n = n := field_of_lt hn
    refine ⟨(s.setRequests rest).setOut base n, ?_, hf, rfl, ?_, rfl, rfl⟩
    · rw [step_cons hq]
      exact serveOperands_idle (s := s.setRequests rest) hm fun s => s.setOut base n
    · simp only [State.setOut, hf, setRequests_iface]

end Sys2Proof.Laws
end

section
/-! PROOFS. What an operation leaves of memory and of the registers (20_memory.md R55): no command faults, a small step changes nothing
but the transient registers and OUT unless it ends the operation, and the text PACK7 writes is the bit stream of R53. -/

namespace Sys2Proof.Laws

open Sys2Proof.Machine

/-- Settles O11: a command is refused, or it is accepted and ends in a next state. -/
theorem execNeverFaults : Obligations.ExecNeverFaults := by
  unfold Obligations.ExecNeverFaults
  intro i s f hf
  obtain ⟨-, r, hr⟩ | ⟨-, t, ht, -⟩ := exec_cases i s
  · cases hr.symm.trans hf
  · cases ht.symm.trans hf

/-! ### What one small step changes -/

/-- What a part of an operation that started in `s` comes to: the operation still runs, with what no part changes, or it has
ended. -/
def KeepsOrEnds (s : State) (r : Run State) : Prop := ∀ t, conclude r = .next t → Kept s t ∨ Ended s t

/-- A part that does not finish the operation ends it at most by an error (R184). -/
theorem KeepsAt.keepsOrEnds {s : State} {r : Run State} (h : KeepsAt s r) : KeepsOrEnds s r := by
  intro t ht
  match r with
  | .ok _ => cases ht; exact .inl (h.ok _ rfl)
  | .error (.raised e s') => cases ht; exact .inr ((h.raised e s' rfl).raiseError e)
  | .error (.fault f) => cases ht

theorem keepsOrEnds_finish {s s' : State} (k : Kept s s') (n : Nat) : KeepsOrEnds s (.ok (finish n s')) := by
  intro t ht
  cases ht
  exact .inr (k.finish n)

/-- One part after another, where only the second may end the operation well. -/
theorem KeepsAt.bind_keepsOrEnds {s : State} {r : Run State} {g : State → Run State} (h : KeepsAt s r)
    (hg : ∀ s', Kept s s' → KeepsOrEnds s (g s')) : KeepsOrEnds s (r >>= g) := by
  match r with
  | .ok s' => exact hg s' (h.ok s' rfl)
  | .error (.raised e s') => exact (keepsAt_raised e (h.raised e s' rfl)).keepsOrEnds
  | .error (.fault f) => exact (keepsAt_fault s f).keepsOrEnds

theorem stageAfter_keepsOrEnds {s s' : State} (k : Kept s s') (smsc : Bool) (st : Stage) :
    KeepsOrEnds s (stageAfter smsc st s') := by
  by_cases hst : st = .done
  · subst hst
    exact keepsOrEnds_finish k _
  · exact ((keepsAt_stageAfter_not_done hst s').of_kept k).keepsOrEnds

theorem addrEnd_keepsOrEnds (op : Instr) (s : State) : KeepsOrEnds s (addrEnd op s) := by
  unfold addrEnd
  split
  · exact keepsOrEnds_finish (.refl s) _
  · exact (keepsAt_ok (((Kept.refl s).setTr _).setTr _)).keepsOrEnds
  · exact (keepsAt_ok (((Kept.refl s).setTr _).setTr _)).keepsOrEnds
  · exact (keepsAt_fault s _).keepsOrEnds

theorem septetEnd_keepsOrEnds {s s' : State} (k : Kept s s') (op : Instr) : KeepsOrEnds s (septetEnd op s') := by
  unfold septetEnd
  split
  · exact keepsOrEnds_finish k _
  · exact (keepsAt_ok ((k.setTr _).setTr _)).keepsOrEnds
  · exact (keepsAt_fault s _).keepsOrEnds

theorem sequenceStep_keepsOrEnds (op : Instr) (s : State) : KeepsOrEnds s (sequenceStep op s) := by
  cases op with
  | encaddr => exact (keepsAt_addrEnter _ _ _ _ s).keepsOrEnds
  | pack7 => exact (keepsAt_septetEnter _ _ s).keepsOrEnds
  | asmpdu smsc => exact (keepsAt_stageEmit smsc _ s).bind_keepsOrEnds fun _ k => stageAfter_keepsOrEnds k smsc _

theorem runStep_keepsOrEnds (op : Instr) (s : State) : KeepsOrEnds s (runStep op s) := by
  unfold runStep
  cases s.tr.unit with
  | idle => exact sequenceStep_keepsOrEnds op s
  | addrEncode =>
    simp only [addrStep]
    split
    · exact (keepsAt_addrIter s).keepsOrEnds
    · exact addrEnd_keepsOrEnds op s
  | septetPack =>
    simp only [septetStep]
    split
    · exact (keepsAt_septetIter s).keepsOrEnds
    · exact (keepsAt_septetLeftover s).bind_keepsOrEnds fun _ k => septetEnd_keepsOrEnds k op

/-- All that a small step of the block can do, from any state: it goes on, or it ends the operation that was running. -/
theorem kept_or_ended_of_microStep {s t : State} (h : conclude (microStep s) = .next t) :
    Kept s t ∨ (Ended s t ∧ t.mode ≠ s.mode) := by
  cases hm : s.mode with
  | idle =>
    rw [microStep_idle hm] at h
    cases h
    exact .inl (.refl s)
  | running op =>
    rw [microStep_running hm] at h
    obtain k | e := runStep_keepsOrEnds op s t h
    · exact .inl k
    · exact .inr ⟨e, by rw [e.mode]; nofun⟩

/-- With nothing asked of the block, or a tick, a step is a small step with the rest of the actions left. -/
theorem step_eq_microStep {s : State} {rest : List Request}
    (h : s.requests = [] ∧ rest = [] ∨ s.requests = .tick :: rest) :
    step s = conclude (microStep (s.setRequests rest)) := by
  obtain ⟨hq, rfl⟩ | hq := h
  · rw [step_nil hq, ← hq, setRequests_self]
  · rw [step_cons hq, serve]

/-- Settles O30: a small step either keeps all but the transient registers and OUT, or ends the operation, with MODE changed. -/
theorem smallStepFrame : Obligations.SmallStepFrame := by
  unfold Obligations.SmallStepFrame
  intro s t rest hq ht
  rw [step_eq_microStep hq] at ht
  obtain k | ⟨e, hm⟩ := kept_or_ended_of_microStep ht
  · exact ⟨k.outside, k.cfg, k.iface, k.place, k.params, k.requests, fun _ => ⟨k.status, k.len, k.draws⟩⟩
  · exact ⟨e.outside, e.cfg, e.iface, e.place, e.params, e.requests, fun h => absurd h hm⟩

/-! ### The packed text, byte by byte and bit by bit -/

theorem septet_toNat (s : State) (j : Nat) : (septet (s.inByte .txt j)).toNat = s.textSeptet j :=
  BitVec.toNat_setWidth _ _

/-- The main pass writes a byte exactly where the cursor has a septet after it (R125, R127). -/
theorem lt_passCount_iff {n b : Nat} : b < passCount n ↔ b + b / 7 + 1 < n := by
  rw [passCount]
  omega

theorem passByte_eq_packedByte {s : State} {b : Nat} (h : b < passCount s.iface.nt) : passByte s b = s.packedByte b := by
  have hp : 8 - (b % 7 + 1) = 7 - b % 7 := by omega
  rw [State.packedByte, if_pos (lt_passCount_iff.1 h), passByte, phaseByte, septet_toNat, septet_toNat, Nat.add_sub_cancel, hp]

theorem leftoverByte_eq_packedByte {s : State} (h : s.iface.nt % 8 ≠ 0) :
    leftoverByte (passCount s.iface.nt % 7 + 1) (septet (s.inByte .txt (s.iface.nt - 1))) =
      s.packedByte (passCount s.iface.nt) := by
  have hi : passCount s.iface.nt + passCount s.iface.nt / 7 = s.iface.nt - 1 := by
    rw [passCount]
    omega
  rw [State.packedByte, if_neg (mt lt_passCount_iff.2 (lt_irrefl _)), leftoverByte, septet_toNat, Nat.add_sub_cancel, hi]

/-- The bytes SeptetPack writes are those of the phase formula (R125 to R128). -/
theorem septetBytes_eq_packedBytes (s : State) : septetBytes s = s.packedBytes := by
  have hpass : passBytes s (passCount s.iface.nt) = (List.range (passCount s.iface.nt)).map s.packedByte :=
    List.map_congr_left fun b hb => passByte_eq_packedByte (List.mem_range.1 hb)
  rw [septetBytes, hpass, State.packedBytes]
  by_cases h : s.iface.nt % 8 = 0
  · have hL : packedLength s.iface.nt = passCount s.iface.nt := by
      rw [packedLength_eq, passCount]
      omega
    rw [if_pos h, hL, List.append_nil]
  · have hL : packedLength s.iface.nt = passCount s.iface.nt + 1 := by
      rw [packedLength_eq, passCount]
      omega
    rw [if_neg h, hL, List.range_succ, List.map_append, leftoverByte_eq_packedByte h]
    rfl

theorem textSeptet_testBit_of_ge (s : State) (j : Nat) {k : Nat} (h : 7 ≤ k) : (s.textSeptet j).testBit k = false :=
  Nat.testBit_lt_two_pow ((Nat.mod_lt _ (by decide)).trans_le (Nat.pow_le_pow_right (by decide) h) : _ < 2 ^ k)

/-! Stream position 8*b + k is 7*(b + floor(b/7)) + (b mod 7 + k): bit k of byte b lies in the septet at the cursor, or where
b mod 7 + k is past its 7 bits, in the septet after it (R53, R127). -/

theorem packedBit_of_lt {s : State} {b k : Nat} (h : b % 7 + k < 7) (hi : b + b / 7 < s.iface.nt) :
    s.packedBit b k = (s.textSeptet (b + b / 7)).testBit (b % 7 + k) := by
  have hdiv : (8 * b + k) / 7 = b + b / 7 := by omega
  have hmod : (8 * b + k) % 7 = b % 7 + k := by omega
  rw [State.packedBit, if_pos (by omega), hdiv, hmod]

theorem packedBit_of_ge {s : State} {b k : Nat} (h : 7 ≤ b % 7 + k) (hk : k < 8) (hi : b + b / 7 + 1 < s.iface.nt) :
    s.packedBit b k = (s.textSeptet (b + b / 7 + 1)).testBit (b % 7 + k - 7) := by
  have hdiv : (8 * b + k) / 7 = b + b / 7 + 1 := by omega
  have hmod : (8 * b + k) % 7 = b % 7 + k - 7 := by omega
  rw [State.packedBit, if_pos (by omega), hdiv, hmod]

theorem packedBit_past_end {s : State} {b k : Nat} (h : 7 ≤ b % 7 + k) (hi : ¬ b + b / 7 + 1 < s.iface.nt) :
    s.packedBit b k = false := by
  rw [State.packedBit, if_neg (by omega)]

/-- Bit k of a byte of the packed text is bit 8*b + k of the stream of septets (R53). -/
theorem packedByte_getLsbD {s : State} {b k : Nat} (hb : b < packedLength s.iface.nt) (hk : k < 8) :
    (s.packedByte b).getLsbD k = s.packedBit b k := by
  have hi : b + b / 7 < s.iface.nt := by
    rw [packedLength_eq] at hb
    omega
  by_cases hpair : b + b / 7 + 1 < s.iface.nt
  · rw [State.packedByte, if_pos hpair, trunc8, BitVec.getLsbD_ofNat, Nat.testBit_or, Nat.testBit_shiftRight,
      Nat.testBit_shiftLeft]
    by_cases h : b % 7 + k < 7
    · rw [packedBit_of_lt h hi]
      have : ¬ 7 - b % 7 ≤ k := by omega
      simp [hk, this]
    · have hsub : k - (7 - b % 7) = b % 7 + k - 7 := by omega
      rw [packedBit_of_ge (by omega) hk hpair, textSeptet_testBit_of_ge _ _ (by omega), hsub]
      have : 7 - b % 7 ≤ k := by omega
      simp [hk, this]
  · rw [State.packedByte, if_neg hpair, trunc8, BitVec.getLsbD_ofNat, Nat.testBit_shiftRight]
    by_cases h : b % 7 + k < 7
    · rw [packedBit_of_lt h hi]
      simp [hk]
    · rw [packedBit_past_end (by omega) hpair, textSeptet_testBit_of_ge _ _ (by omega), Bool.and_false]

/-- PACK7, accepted where no check fails, leaves the packed text in OUT[0 .. LEN-1] (R122). -/
theorem pack7_writes_packedByte {s : State} (ha : s.accepts .pack7) (hnt : s.iface.nt ≤ 160)
    (hcap : packedLength s.iface.nt ≤ s.iface.cap) :
    ∃ t, exec .pack7 s = .next t ∧ t.status = .ok ∧ t.len = packedLength s.iface.nt ∧
      ∀ b, b < packedLength s.iface.nt → t.outByte b = s.packedByte b := by
  obtain ⟨t, ht, ans⟩ := exec_of_accepts ha
  have hnil : s.errors .pack7 = [] := textErrors_eq_nil.2 ⟨hnt, hcap⟩
  obtain ⟨hok, hlen, -⟩ := ans.ok hnil
  refine ⟨t, ht, hok, hlen.trans (septetBytes_length s), fun b hb => ans.bytes hnil b _ ?_⟩
  rw [writtenBytes, septetBytes_eq_packedBytes, State.packedBytes]
  simp [hb]

/-- Settles O19: the bytes written are those of the phase formula, and each of their bits is the one of the stream. -/
theorem pack7IsTheBitStream : Obligations.Pack7IsTheBitStream := by
  unfold Obligations.Pack7IsTheBitStream
  intro s ha hnt hcap
  obtain ⟨t, ht, hok, hlen, hbytes⟩ := pack7_writes_packedByte ha hnt hcap
  refine ⟨t, ht, hok, hlen, fun b k hb hk => ?_⟩
  rw [hbytes b hb, packedByte_getLsbD hb hk]

end Sys2Proof.Laws
end

section
/-! PROOFS. The command byte (30_encoding.md R70 to R74): its fields and back, which bytes are commands, and the
refusal of every other byte. -/

namespace Sys2Proof.Laws

open Sys2Proof.Machine

/-! ### A byte and its fields -/

theorem joinCmd_splitCmd (b : Byte) : joinCmd (splitCmd b) = b := by
  revert b
  decide

theorem splitCmd_joinCmd (f : CmdFields) : splitCmd (joinCmd f) = f := by
  obtain ⟨op, smsc, rsv⟩ := f
  revert op smsc rsv
  decide

/-- The decoder reads exactly the fields that R73 gives each command. -/
theorem decodeFields_eq_ok_iff {f : CmdFields} {i : Instr} : decodeFields f = .ok i ↔ f = i.fields := by
  constructor
  · obtain ⟨op, smsc, rsv⟩ := f
    intro h
    unfold decodeFields at h
    split_ifs at h with hrsv hasm hzero hsmsc henc
    all_goals
      cases h
      obtain rfl : rsv = 0 := not_not.1 hrsv
    · obtain rfl : op = 0b11 := hasm
      rfl
    · obtain rfl : smsc = false := Bool.eq_false_iff.2 hsmsc
      obtain rfl : op = 0b01 := henc
      rfl
    · obtain rfl : smsc = false := Bool.eq_false_iff.2 hsmsc
      obtain rfl : op = 0b10 := by bv_omega
      rfl
  · rintro rfl
    cases i with
    | encaddr => rfl
    | pack7 => rfl
    | asmpdu smsc => rfl

/-- A byte decodes to a command exactly when it is that command's encoding. -/
theorem decode_eq_ok_iff {b : Byte} {i : Instr} : decode b = .ok i ↔ b = encode i := by
  rw [decode, decodeFields_eq_ok_iff, encode]
  constructor
  · intro h
    rw [← h, joinCmd_splitCmd]
  · rintro rfl
    exact splitCmd_joinCmd _

/-! ### The rows of the opcode map, and the bytes outside it -/

theorem encode_values :
    encode .encaddr = 0x01 ∧ encode .pack7 = 0x02 ∧ encode (.asmpdu false) = 0x03 ∧ encode (.asmpdu true) = 0x07 := by decide

/-- Mask 0xFB leaves out bit S only. -/
theorem and_mask_asmpdu_iff (b : Byte) : b &&& 0xFB = 0x03 ↔ ∃ smsc, b = encode (.asmpdu smsc) := by
  revert b
  decide

/-- A byte that is none of the four commands is rejected. -/
theorem decode_error_of_reserved {b : Byte} (h1 : b ≠ 0x01) (h2 : b ≠ 0x02) (h3 : b ≠ 0x03) (h7 : b ≠ 0x07) :
    ∃ r, decode b = .error r := by
  cases hd : decode b with
  | error r => exact ⟨r, rfl⟩
  | ok i =>
    have hb := decode_eq_ok_iff.1 hd
    obtain ⟨e1, e2, e3, e7⟩ := encode_values
    cases i with
    | encaddr => exact absurd (hb.trans e1) h1
    | pack7 => exact absurd (hb.trans e2) h2
    | asmpdu smsc =>
      cases smsc with
      | false => exact absurd (hb.trans e3) h3
      | true => exact absurd (hb.trans e7) h7

theorem serveIssue_of_reserved {b : Byte} {r : Reserved} (h : decode b = .error r) (s : State) :
    serveIssue b s = .refused .reservedCommand := by
  rw [serveIssue, h]

theorem serveIssueNoWait_of_reserved {b : Byte} {r : Reserved} (h : decode b = .error r) (s : State) :
    serveIssueNoWait b s = .refused .reservedCommand := by
  rw [serveIssueNoWait, h]

/-- Settles O1: a byte decodes to a command when it is its encoding, and each row's mask and match select those encodings. -/
theorem commandBytesDecode : Obligations.CommandBytesDecode := by
  unfold Obligations.CommandBytesDecode
  obtain ⟨e1, e2, e3, e7⟩ := encode_values
  have hmask : ∀ b : Byte, b &&& 0xFF = b := fun b => BitVec.and_allOnes
  refine ⟨decode_eq_ok_iff.2 e1.symm, decode_eq_ok_iff.2 e2.symm, decode_eq_ok_iff.2 e3.symm, decode_eq_ok_iff.2 e7.symm,
    fun b => ?_, fun b => ?_, fun b => ?_⟩
  · rw [hmask, decode_eq_ok_iff, e1]
  · rw [hmask, decode_eq_ok_iff, e2]
  · rw [and_mask_asmpdu_iff]
    exact exists_congr fun smsc => decode_eq_ok_iff.symm

/-- Settles O2: the decoder rejects every other byte, and both ways of issuing refuse what it rejects before they look at MODE. -/
theorem reservedCommandsAreRefused : Obligations.ReservedCommandsAreRefused := by
  unfold Obligations.ReservedCommandsAreRefused
  intro s b rest h1 h2 h3 h7 hq
  obtain ⟨r, hr⟩ := decode_error_of_reserved h1 h2 h3 h7
  obtain hq | hq := hq
  · rw [step_cons hq]
    exact serveIssue_of_reserved hr _
  · rw [step_cons hq]
    exact serveIssueNoWait_of_reserved hr _

theorem instr_wf (i : Instr) : i.wf = true := by
  cases i with
  | encaddr => rfl
  | pack7 => rfl
  | asmpdu smsc => cases smsc <;> rfl

/-- Settles O3: a byte decodes to a command exactly when it is its encoding. -/
theorem decodeAndEncodeAgree : Obligations.DecodeAndEncodeAgree := by
  unfold Obligations.DecodeAndEncodeAgree
  exact ⟨fun i => ⟨instr_wf i, decode_eq_ok_iff.2 rfl⟩, fun b i h => (decode_eq_ok_iff.1 h).symm⟩

end Sys2Proof.Laws
end

section
/-! PROOFS. An assembler line (30_encoding.md R75; 70_reset_and_hazards.md R203): its input spaces are filled one
after the other, then OUT is set and the command issued; what they hold then, and what is as before. -/

namespace Sys2Proof.Laws

open Sys2Proof.Machine

/-! ### Input spaces filled one after the other -/

/-- One `s=`, `d=` or `t=` of a line: an input space, its place and its bytes. -/
structure Operand where
  sp : InSpace
  base : Nat
  bytes : List Byte

/-- The actions that give the operands, in their order. -/
def giveAll (xs : List Operand) : List Request := xs.flatMap fun x => giveInput x.sp x.base x.bytes

/-- The state after the operands are given, in their order. -/
def givenAll (s : State) (xs : List Operand) : State := xs.foldl (fun s x => given s x.sp x.base x.bytes) s

/-- Giving one operand after another leaves what the earlier one holds: another space, and the same bytes where they overlap. -/
def Operand.Compatible (x y : Operand) : Prop := x.sp ≠ y.sp ∧ Agree x.base x.bytes y.base y.bytes

theorem giveAll_cons (x : Operand) (xs : List Operand) : giveAll (x :: xs) = giveInput x.sp x.base x.bytes ++ giveAll xs := rfl

theorem givenAll_cons (s : State) (x : Operand) (xs : List Operand) :
    givenAll s (x :: xs) = givenAll (given s x.sp x.base x.bytes) xs := rfl

theorem givenAll_mode (s : State) (xs : List Operand) : (givenAll s xs).mode = s.mode := by
  induction xs generalizing s with
  | nil => rfl
  | cons x xs ih => rw [givenAll_cons, ih, given_mode]

theorem givenAll_params (s : State) (xs : List Operand) : (givenAll s xs).params = s.params := by
  induction xs generalizing s with
  | nil => rfl
  | cons x xs ih => rw [givenAll_cons, ih, given_params]

theorem run_giveAll {s : State} (hm : s.mode = .idle) (xs : List Operand) (rest : List Request) :
    Sys2Proof.core.run (giveAll xs).length (s.setRequests (giveAll xs ++ rest)) = .next ((givenAll s xs).setRequests rest) := by
  induction xs generalizing s with
  | nil => rfl
  | cons x xs ih =>
    rw [giveAll_cons, List.length_append, List.append_assoc, run_add_of_next (run_giveInput hm x.sp x.base x.bytes _),
      ih ((given_mode s _ _ _).trans hm), givenAll_cons]

theorem holds_givenAll_other {s : State} {x : Operand} {xs : List Operand} (h : s.Holds x.sp x.base x.bytes)
    (hx : ∀ y ∈ xs, x.Compatible y) : (givenAll s xs).Holds x.sp x.base x.bytes := by
  induction xs generalizing s with
  | nil => exact h
  | cons y ys ih =>
    obtain ⟨hne, hagree⟩ := hx y List.mem_cons_self
    exact ih (holds_given_other hne h hagree) fun z hz => hx z (List.mem_cons_of_mem _ hz)

/-- Every operand is held after all are given, where each is compatible with the later ones. -/
theorem holds_givenAll {s : State} {xs : List Operand} (hfit : ∀ x ∈ xs, x.bytes.length < 2 ^ s.params.capW)
    (hxs : xs.Pairwise Operand.Compatible) : ∀ x ∈ xs, (givenAll s xs).Holds x.sp x.base x.bytes := by
  induction xs generalizing s with
  | nil => nofun
  | cons y ys ih =>
    obtain ⟨hy, hys⟩ := List.pairwise_cons.1 hxs
    obtain ⟨hfity, hfitys⟩ := List.forall_mem_cons.1 hfit
    have hyheld : (given s y.sp y.base y.bytes).Holds y.sp y.base y.bytes := holds_given hfity
    rw [givenAll_cons]
    refine List.forall_mem_cons.2 ⟨holds_givenAll_other hyheld hy, ih ?_ hys⟩
    rwa [given_params]

/-! ### The command issued -/

theorem issued_ready {s : State} (hm : s.mode = .idle) (i : Instr) (out : Nat) {cap : Nat} (hcap : cap < 2 ^ s.params.capW)
    (rest : List Request) : s.Issued (ready s i out cap rest) i out cap rest :=
  ⟨hm, rfl, rfl, rfl, rfl, rfl, rfl, rfl, rfl, field_of_lt hcap, rfl, fun _ _ => rfl⟩

/-- An operand that is held when the command is issued makes no other difference to the state before it was given. -/
theorem issued_of_given {s u : State} {x : Operand} {i : Instr} {out cap : Nat} {rest : List Request}
    (h : (given s x.sp x.base x.bytes).Issued u i out cap rest) (hu : u.Holds x.sp x.base x.bytes) :
    s.Issued u i out cap rest := by
  simp only [State.Issued, given_cfg, given_params, given_status, given_len, given_tr, given_draws] at h
  obtain ⟨hm, hcfg, hparams, hstatus, hlen, htr, hdraws, hreq, hcmd, hcap, hout, hmem⟩ := h
  exact ⟨hm, hcfg, hparams, hstatus, hlen, htr, hdraws, hreq, hcmd, hcap, hout,
    fun a ha => (hmem a ha).trans (read_given_other hu (ha x.sp))⟩

theorem issued_of_givenAll {s u : State} {xs : List Operand} {i : Instr} {out cap : Nat} {rest : List Request}
    (h : (givenAll s xs).Issued u i out cap rest) (hu : ∀ x ∈ xs, u.Holds x.sp x.base x.bytes) : s.Issued u i out cap rest := by
  induction xs generalizing s with
  | nil => exact h
  | cons x xs ih =>
    obtain ⟨hx, hxs⟩ := List.forall_mem_cons.1 hu
    exact issued_of_given (ih h hxs) hx

/-- A line whose actions give these operands, set OUT and issue a command, comes to that command on those operands. -/
theorem run_line {line : AsmLine} {at_ : Placement} {s : State} {i : Instr} {cap : Nat} {xs : List Operand}
    (hline : line.requests at_ = giveAll xs ++ [.setOut at_.out cap, .issue (encode i)]) (hm : s.mode = .idle)
    (hcap : cap < 2 ^ s.params.capW) (hfit : ∀ x ∈ xs, x.bytes.length < 2 ^ s.params.capW)
    (hxs : xs.Pairwise Operand.Compatible) (rest : List Request) :
    ∃ u, s.Issued u i at_.out cap rest ∧ (∀ x ∈ xs, u.Holds x.sp x.base x.bytes) ∧ line.run at_ rest s = exec i u := by
  have hm' : (givenAll s xs).mode = .idle := (givenAll_mode s xs).trans hm
  have hholds : ∀ x ∈ xs, (ready (givenAll s xs) i at_.out cap rest).Holds x.sp x.base x.bytes :=
    fun x hx => holds_ready (holds_givenAll hfit hxs x hx)
  refine ⟨ready (givenAll s xs) i at_.out cap rest, issued_of_givenAll (issued_ready hm' i at_.out ?_ rest) hholds, hholds, ?_⟩
  · rwa [givenAll_params]
  · rw [AsmLine.run, hline, List.length_append, List.append_assoc, run_add_of_next (run_giveAll hm xs _), run_issue hm']

theorem run_cfg_line {s : State} (hm : s.mode = .idle) (at_ : Placement) (rest : List Request) (r : CfgReg) (v : Byte) :
    (AsmLine.cfg r v).run at_ rest s = .next ((s.setRequests rest).setCfg (s.cfg.set r v)) := by
  refine run_one ((step_cons (r := .cfgWrite r v) (rest := rest) rfl).trans ?_)
  simp [serve, serveCfgWrite, hm]

/-- Settles O39: each command line gives its operands in turn, compatible with the later ones, and issues its command. -/
theorem assemblerLineRunsItsCommand : Obligations.AssemblerLineRunsItsCommand := by
  unfold Obligations.AssemblerLineRunsItsCommand
  intro s at_ cap sm d t rest hm hcap hsm hd ht
  refine ⟨?_, ?_, fun hdt => ?_, fun hsd hst hdt => ?_, run_cfg_line hm at_ rest⟩
  · obtain ⟨u, hu, hx, hrun⟩ := run_line (line := .encaddr cap d) (at_ := at_) (i := .encaddr)
      (xs := [⟨.digd, at_.digd, d⟩]) (by simp [AsmLine.requests, giveAll]) hm hcap
      (by simpa using hd) (List.pairwise_singleton _ _) rest
    exact ⟨u, hu, by simpa using hx, hrun⟩
  · obtain ⟨u, hu, hx, hrun⟩ := run_line (line := .pack7 cap t) (at_ := at_) (i := .pack7)
      (xs := [⟨.txt, at_.txt, t⟩]) (by simp [AsmLine.requests, giveAll]) hm hcap
      (by simpa using ht) (List.pairwise_singleton _ _) rest
    exact ⟨u, hu, by simpa using hx, hrun⟩
  · obtain ⟨u, hu, hx, hrun⟩ := run_line (line := .asmpdu cap none d t) (at_ := at_) (i := .asmpdu false)
      (xs := [⟨.digd, at_.digd, d⟩, ⟨.txt, at_.txt, t⟩])
      (by simp [AsmLine.requests, giveAll]) hm hcap (by simp [hd, ht]) (by simp [Operand.Compatible, hdt]) rest
    obtain ⟨hxd, hxt⟩ : _ ∧ _ := by simpa using hx
    exact ⟨u, hu, hxd, hxt, hrun⟩
  · obtain ⟨u, hu, hx, hrun⟩ := run_line (line := .asmpdu cap (some sm) d t) (at_ := at_) (i := .asmpdu true)
      (xs := [⟨.digs, at_.digs, sm⟩, ⟨.digd, at_.digd, d⟩, ⟨.txt, at_.txt, t⟩])
      (by simp [AsmLine.requests, giveAll]) hm hcap (by simp [hsm, hd, ht])
      (by simp [Operand.Compatible, hsd, hst, hdt]) rest
    obtain ⟨hxs, hxd, hxt⟩ : _ ∧ _ ∧ _ := by simpa using hx
    exact ⟨u, hu, hxs, hxd, hxt, hrun⟩

end Sys2Proof.Laws
end

section
/-! PROOFS. ENCADDR (40_phone_number_encoder.md): what it writes, nibble by nibble; which kind it reports; and the refusal of a digit
string over MAX_DIGITS. -/

namespace Sys2Proof.Laws

open Sys2Proof.Machine

/-! ### Nibbles and digits -/

theorem addrByte_toNat (lo hi : Nibble) : (addrByte lo hi).toNat = hi.toNat * 16 + lo.toNat := by
  rw [addrByte, BitVec.toNat_append, ← Nat.shiftLeft_add_eq_or_of_lt lo.isLt, Nat.shiftLeft_eq]

/-- The address byte in the form the rules write it: the high nibble shifted by 4, ORed with the low one (R52, R105). -/
theorem addrByte_eq_trunc8 (lo hi : Nibble) : addrByte lo hi = trunc8 (hi.toNat <<< 4 ||| lo.toNat) := by
  rw [trunc8, ← BitVec.toNat_append, BitVec.ofNat_toNat, BitVec.setWidth_eq, addrByte]

theorem digit_toNat {c : Byte} (h : 0x30 ≤ c.toNat ∧ c.toNat ≤ 0x39) : (digit c).toNat = c.toNat - 0x30 := by
  have hsub : (c - 0x30).toNat = c.toNat - 0x30 := BitVec.toNat_sub_of_le (BitVec.le_def.2 h.1)
  rw [digit, BitVec.toNat_setWidth, hsub]
  omega

theorem digit_toNat_le_nine {c : Byte} (h : 0x30 ≤ c.toNat ∧ c.toNat ≤ 0x39) : (digit c).toNat ≤ 9 := by
  rw [digit_toNat h]
  omega

section digitString
variable {s : State} {sp : InSpace} {n k : Nat}

/-- A pair of digits: the first in the low nibble, the second in the high one (R105). -/
theorem pairByte_of_pair (hd : s.DigitString sp n) (hk : 2 * k + 1 < n) :
    pairByte s sp n k =
      trunc8 ((((s.inByte sp (2 * k + 1)).toNat - 0x30) <<< 4) ||| ((s.inByte sp (2 * k)).toNat - 0x30)) := by
  rw [pairByte, if_pos hk, addrByte_eq_trunc8, digit_toNat (hd _ hk), digit_toNat (hd _ (by omega))]

/-- A last digit without a second: the pad in the high nibble (R106). -/
theorem pairByte_of_last (hd : s.DigitString sp n) (hk : 2 * k + 1 = n) :
    pairByte s sp n k = trunc8 (0xF0 ||| ((s.inByte sp (2 * k)).toNat - 0x30)) := by
  have hpad : Config.padNibble.toNat <<< 4 = 0xF0 := rfl
  rw [pairByte, if_neg (by omega), addrByte_eq_trunc8, digit_toNat (hd _ (by omega)), hpad]

theorem pairByte_low_le_nine (hd : s.DigitString sp n) (hk : 2 * k < n) : (pairByte s sp n k).toNat % 16 ≤ 9 := by
  have := digit_toNat_le_nine (hd _ hk)
  rw [pairByte, addrByte_toNat]
  omega

/-- A high nibble is a digit, or the pad where no digit is left for it (R107). -/
theorem pairByte_high_range (hd : s.DigitString sp n) (hk : 2 * k < n) :
    (pairByte s sp n k).toNat / 16 ≤ 9 ∨ ((pairByte s sp n k).toNat / 16 = 0xF ∧ 2 * k + 1 = n) := by
  have hlo := digit_toNat_le_nine (hd _ hk)
  rw [pairByte, addrByte_toNat]
  by_cases h : 2 * k + 1 < n
  · have hhi := digit_toNat_le_nine (hd _ h)
    rw [if_pos h]
    omega
  · have hpad : Config.padNibble.toNat = 0xF := rfl
    rw [if_neg h, hpad]
    omega

end digitString

/-! ### What ENCADDR writes -/

/-- ENCADDR, accepted where no check fails, leaves the encoded digits in OUT[0 .. LEN-1] (R100, R101). -/
theorem encaddr_writes_pairByte {s : State} (ha : s.accepts .encaddr) (hd : s.DigitString .digd s.iface.nd)
    (hcap : ceilDiv s.iface.nd 2 ≤ s.iface.cap) :
    ∃ t, exec .encaddr s = .next t ∧ t.status = .ok ∧ t.len = ceilDiv s.iface.nd 2 ∧
      ∀ k, 2 * k < s.iface.nd → t.outByte k = pairByte s .digd s.iface.nd k := by
  obtain ⟨t, ht, ans⟩ := exec_of_accepts ha
  have hnil : s.errors .encaddr = [] := addrErrors_eq_nil.2 ⟨hcap, hd⟩
  obtain ⟨hok, hlen, -⟩ := ans.ok hnil
  refine ⟨t, ht, hok, hlen.trans (pairBytes_length ..), fun k hk => ans.bytes hnil k _ ?_⟩
  have hlt : k < ceilDiv s.iface.nd 2 := by
    rw [ceilDiv_two]
    omega
  simp [writtenBytes, pairBytes, hlt]

/-- Settles O16: byte k is the one of digit pair k, whose second nibble is a digit or the pad. -/
theorem encAddrWritesSemiOctets : Obligations.EncAddrWritesSemiOctets := by
  unfold Obligations.EncAddrWritesSemiOctets
  intro s ha hd hcap
  obtain ⟨t, ht, hok, hlen, hbytes⟩ := encaddr_writes_pairByte ha hd hcap
  refine ⟨t, ht, hok, hlen, fun k hk => ?_, fun hodd => ?_⟩
  · rw [hbytes k (by omega), pairByte_of_pair hd hk]
  · have hlast : 2 * ((s.iface.nd - 1) / 2) = s.iface.nd - 1 := by omega
    rw [hbytes _ (by omega), pairByte_of_last hd (by omega), hlast]

/-- Settles O18: each byte below LEN is that of a digit pair, and the pad stands where no digit is left. -/
theorem encAddrNibbleRange : Obligations.EncAddrNibbleRange := by
  unfold Obligations.EncAddrNibbleRange
  intro s ha hd hcap
  obtain ⟨t, ht, -, hlen, hbytes⟩ := encaddr_writes_pairByte ha hd hcap
  refine ⟨t, ht, fun k hk => ?_⟩
  rw [hlen, ceilDiv_two] at hk ⊢
  have hfirst : 2 * k < s.iface.nd := by omega
  rw [hbytes k hfirst]
  refine ⟨pairByte_low_le_nine hd hfirst, (pairByte_high_range hd hfirst).imp_right fun ⟨hpad, hlast⟩ => ⟨hpad, ?_, ?_⟩⟩
  · omega
  · omega

/-! ### Which kind a command reports -/

theorem errKind_status_injective : Function.Injective ErrKind.status := by
  intro e e' h
  match e, e', h with
  | .capacity, .capacity, _ => rfl
  | .format, .format, _ => rfl
  | .length, .length, _ => rfl

theorem mem_of_pickFrom {draw : Nat} {errs : List ErrKind} {e : ErrKind} (h : pickFrom draw errs = some e) : e ∈ errs := by
  match errs with
  | [_] => simpa [pickFrom, eq_comm] using h
  | e₁ :: e₂ :: _ =>
    obtain rfl := Option.some.inj h
    split <;> simp

/-- A kind a command reports is one that applies (R104, R124, R163). -/
theorem Answers.mem_errors {i : Instr} {s t : State} (h : Answers i s t) {e : ErrKind} (he : t.status = e.status) :
    e ∈ s.errors i := by
  cases hp : pickFrom s.draws (s.errors i) with
  | none => exact absurd (he.symm.trans (h.ok (pickFrom_eq_none.1 hp)).1) (errKind_status_ne_ok e)
  | some e' =>
    obtain rfl := errKind_status_injective ((h.raised e' hp).1.symm.trans he)
    exact mem_of_pickFrom hp

section addrErrors
variable {s : State} {sp : InSpace} {n capr : Nat}

theorem capacity_mem_addrErrors : .capacity ∈ s.addrErrors sp n capr ↔ capr < ceilDiv n 2 := by
  simp [State.addrErrors]

theorem format_mem_addrErrors : .format ∈ s.addrErrors sp n capr ↔ ¬ s.DigitString sp n := by
  simp [State.addrErrors, State.DigitString, isDigit_iff]

theorem length_notMem_addrErrors : .length ∉ s.addrErrors sp n capr := by
  simp [State.addrErrors]

end addrErrors

/-- Settles O17: OK exactly where no kind applies, and a kind reported is one that applies. -/
theorem encAddrErrors : Obligations.EncAddrErrors := by
  unfold Obligations.EncAddrErrors
  intro s ha
  obtain ⟨t, ht, ans⟩ := exec_of_accepts ha
  refine ⟨t, ht, ans.status_ok_iff.trans addrErrors_eq_nil, fun hst => ?_, fun hst => ?_, fun hst => ?_⟩
  · exact capacity_mem_addrErrors.1 (ans.mem_errors (e := .capacity) hst)
  · exact format_mem_addrErrors.1 (ans.mem_errors (e := .format) hst)
  · exact length_notMem_addrErrors (ans.mem_errors (e := .length) hst)

/-! ### Refusal of a long digit string -/

/-- In IDLE a digit string over MAX_DIGITS is the first reason looked at. -/
theorem exec_of_not_digitsFit {i : Instr} {s : State} (hm : s.mode = .idle) (h : ¬ s.DigitsFit i) :
    exec i s = .refused .digitStringTooLong := by
  have hlong : s.digitsTooLong i = true := by
    rwa [← digitsTooLong_eq_false, Bool.not_eq_false] at h
  refine exec_of_refusal ?_
  simp [refusal?, hm, hlong]

/-- Settles O13: each of the three lengths is one that `DigitsFit` bounds. -/
theorem longDigitStringIsRefused : Obligations.LongDigitStringIsRefused := by
  unfold Obligations.LongDigitStringIsRefused
  intro s hm
  refine ⟨fun hnd => ?_, fun smsc hnd => ?_, fun hns => ?_⟩
  · exact exec_of_not_digitsFit hm fun hfit => hnd.not_ge hfit
  · exact exec_of_not_digitsFit hm fun ⟨_, hfit⟩ => hnd.not_ge hfit
  · exact exec_of_not_digitsFit hm fun ⟨hfit, _⟩ => hns.not_ge (hfit rfl)

end Sys2Proof.Laws
end

section
/-! PROOFS. PACK7 (41_septet_packer.md): what it writes, byte by byte; which kind it reports; and that bit 7 of a text byte plays no part in
its result (R121). -/

namespace Sys2Proof.Laws

open Sys2Proof.Machine

/-- Settles O20: PACK7 leaves the bytes of the phase formula, as many as the packed length (R122). -/
theorem pack7WritesByPhase : Obligations.Pack7WritesByPhase := by
  unfold Obligations.Pack7WritesByPhase
  intro s ha hnt hcap
  obtain ⟨t, ht, hok, hlen, hbytes⟩ := pack7_writes_packedByte ha hnt hcap
  exact ⟨t, ht, hok, hlen, fun b hb => hbytes b (hlen ▸ hb)⟩

/-! ### Which kind SeptetPack reports -/

section textErrors
variable {s : State} {capr : Nat}

theorem length_mem_textErrors : .length ∈ s.textErrors capr ↔ 160 < s.iface.nt := by
  simp [State.textErrors]

theorem capacity_mem_textErrors : .capacity ∈ s.textErrors capr ↔ capr < packedLength s.iface.nt := by
  simp [State.textErrors]

theorem format_notMem_textErrors : .format ∉ s.textErrors capr := by
  simp [State.textErrors]

end textErrors

/-- Settles O21: OK exactly where no kind applies, and a kind reported is one that applies. -/
theorem pack7Errors : Obligations.Pack7Errors := by
  unfold Obligations.Pack7Errors
  intro s ha
  obtain ⟨t, ht, ans⟩ := exec_of_accepts ha
  refine ⟨t, ht, ans.status_ok_iff.trans textErrors_eq_nil, fun hst => ?_, fun hst => ?_, fun hst => ?_⟩
  · exact length_mem_textErrors.1 (ans.mem_errors (e := .length) hst)
  · exact capacity_mem_textErrors.1 (ans.mem_errors (e := .capacity) hst)
  · exact format_notMem_textErrors (ans.mem_errors (e := .format) hst)

/-! ### Bit 7 of a text byte -/

/-- Two answers where the same kinds apply, of as many draws, have the same STATUS. -/
theorem Answers.status_eq {i : Instr} {s s' t t' : State} (h : Answers i s t) (h' : Answers i s' t')
    (he : s'.errors i = s.errors i) (hd : s'.draws = s.draws) : t.status = t'.status := by
  cases hp : pickFrom s.draws (s.errors i) with
  | none =>
    have hn := pickFrom_eq_none.1 hp
    rw [(h.ok hn).1, (h'.ok (he.trans hn)).1]
  | some e => rw [(h.raised e hp).1, (h'.raised e (by rw [he, hd, hp])).1]

/-- The packed text depends on the septets alone (R121). -/
theorem septetBytes_eq_of_textSeptet {s s' : State} (hnt : s'.iface.nt = s.iface.nt)
    (h : ∀ j, j < s.iface.nt → s.textSeptet j = s'.textSeptet j) : septetBytes s = septetBytes s' := by
  rw [septetBytes_eq_packedBytes, septetBytes_eq_packedBytes, State.packedBytes, State.packedBytes, hnt]
  refine List.map_congr_left fun b hb => ?_
  rw [List.mem_range, packedLength_eq] at hb
  rw [State.packedByte, State.packedByte, hnt, h (b + b / 7) (by omega)]
  by_cases hpair : b + b / 7 + 1 < s.iface.nt
  · rw [if_pos hpair, if_pos hpair, h _ hpair]
  · rw [if_neg hpair, if_neg hpair]

/-- Whether a command is accepted depends on MODE, the buffers' lengths and places, and the parameters (R187). -/
theorem accepts_congr {i : Instr} {s s' : State} (hm : s'.mode = s.mode) (hparams : s'.params = s.params)
    (hplace : s'.place = s.place) (hcap : s'.iface.cap = s.iface.cap) (hsize : ∀ sp, s'.inSize sp = s.inSize sp)
    (h : s.accepts i) : s'.accepts i := by
  obtain ⟨hidle, hfit, ha⟩ := h
  refine ⟨hm.trans hidle, ?_, fun sp k j hk hj => ?_⟩
  · have hns : s'.iface.ns = s.iface.ns := hsize .digs
    have hnd : s'.iface.nd = s.iface.nd := hsize .digd
    cases i with
    | encaddr => rwa [State.DigitsFit, hnd, hparams]
    | pack7 => trivial
    | asmpdu smsc => rwa [State.DigitsFit, hns, hnd, hparams]
  · have hbase : s'.inBase sp = s.inBase sp := by cases sp <;> simp only [State.inBase, hplace]
    rw [hplace, hbase]
    exact ha sp k j (hcap ▸ hk) (hsize sp ▸ hj)

/-- Settles O22: the kinds that apply are functions of NT and CAP, and the bytes written of the septets (R121). -/
theorem pack7IgnoresBitSeven : Obligations.Pack7IgnoresBitSeven := by
  unfold Obligations.Pack7IgnoresBitSeven
  intro s m ha hseptets
  obtain ⟨t, ht, ans⟩ := exec_of_accepts ha
  obtain ⟨t', ht', ans'⟩ := exec_of_accepts (accepts_congr (s := s) (s' := s.setMem m) rfl rfl rfl rfl (setMem_inSize s m) ha)
  have herr : (s.setMem m).errors .pack7 = s.errors .pack7 := rfl
  have hbytes : writtenBytes .pack7 s = writtenBytes .pack7 (s.setMem m) := septetBytes_eq_of_textSeptet rfl hseptets
  have hst : t.status = t'.status := ans.status_eq ans' herr rfl
  refine ⟨t, t', ht, ht', by rw [hst], fun hok => ?_, fun _ => hst⟩
  have hn := ans.status_ok_iff.1 hok
  have hn' := herr.trans hn
  refine ⟨by rw [(ans.ok hn).2.1, (ans'.ok hn').2.1, hbytes], fun k hk => (ans'.bytes hn' k _ ?_).symm⟩
  rw [← hbytes]
  exact ans.getElem?_eq hn hk

end Sys2Proof.Laws
end

section
/-! PROOFS. The operation run one small step at a time ends in exactly what the command gives as one transaction (41_septet_packer.md R131,
10_state.md R26). `Reaches n q r` compares what a small step gives with what is left of the transaction, part by part. -/

namespace Sys2Proof.Laws

open Sys2Proof.Machine

/-! ### Small steps against the transaction -/

/-- With nothing asked of it the block stays in IDLE (R200). -/
theorem run_idle {s : State} (hm : s.mode = .idle) (hq : s.requests = []) (m : Nat) : Sys2Proof.core.run m s = .next s := by
  induction m with
  | zero => rfl
  | succ m ih =>
    have hstep : step s = .next s := by rw [step_nil hq, microStep_idle hm, conclude_ok]
    rw [Nat.add_comm, run_add_of_next (run_one hstep), ih]

/-- What `m` steps after a part of an operation lead to. -/
def runAfter (m : Nat) (q : Run State) : Host.Outcome State Fault Refusal :=
  match q with
  | .ok s => Sys2Proof.core.run m s
  | .error h => conclude (.error h)

/-- After a small step that gives `q`, `n` or more further steps lead to the outcome of `r`. -/
def Reaches (n : Nat) (q r : Run State) : Prop := ∀ m, n ≤ m → runAfter m q = conclude r

theorem Reaches.mono {n n' : Nat} {q r : Run State} (h : Reaches n q r) (hn : n ≤ n') : Reaches n' q r :=
  fun m hm => h m (hn.trans hm)

/-- An operation that has ended, with nothing asked of the block, has reached its outcome. -/
theorem reaches_ended {t : State} (hm : t.mode = .idle) (hq : t.requests = []) : Reaches 0 (.ok t) (.ok t) :=
  fun m _ => run_idle hm hq m

/-- The outcome of a small step that raises an error stands in IDLE, with nothing asked of the block. -/
theorem run_raised {op : Instr} {s s' : State} {e : ErrKind} (hq : s.requests = [])
    (h : runStep op s = .error (.raised e s')) (m : Nat) : Sys2Proof.core.run m (raiseError e s') = .next (raiseError e s') := by
  refine run_idle rfl ?_ m
  obtain k | k := runStep_keepsOrEnds op s _ (by rw [h, conclude_raised]) <;> rw [k.requests, hq]

/-- One small step of the running operation. -/
theorem Reaches.step {n : Nat} {op : Instr} {s : State} {r : Run State} (hm : s.mode = .running op) (hq : s.requests = [])
    (h : Reaches n (runStep op s) r) : Reaches (n + 1) (.ok s) r := by
  intro m hn
  obtain ⟨k, rfl⟩ : ∃ k, m = k + 1 := ⟨m - 1, by omega⟩
  rw [← h k (by omega)]
  have hstep : Sys2Proof.core.step s = conclude (runStep op s) := by
    rw [← microStep_running hm]
    exact step_nil hq
  simp only [runAfter, Host.Core.run, hstep]
  match hr : runStep op s with
  | .ok s' => rfl
  | .error (.raised e s') => exact run_raised hq hr k
  | .error (.fault f) => rfl

/-- A part that the small step and the transaction have in common, with what each does next. -/
theorem Reaches.bind {n : Nat} {q : Run State} {f g : State → Run State}
    (h : ∀ s, q = .ok s → Reaches n (f s) (g s)) : Reaches n (q >>= f) (q >>= g) := by
  cases q with
  | ok s => exact h s rfl
  | error e => exact fun _ _ => rfl

/-- A part that ends the small step, with what the transaction does next. -/
theorem Reaches.bind_right {n : Nat} {q : Run State} {g : State → Run State}
    (h : ∀ s, q = .ok s → Reaches n (.ok s) (g s)) : Reaches n q (q >>= g) := by
  simpa only [bind_pure] using Reaches.bind (f := pure) h

/-! ### The sequencing registers after each part -/

theorem addrEnter_tr {src : InSpace} {ndig base capr : Nat} {s s' : State} (h : addrEnter src ndig base capr s = .ok s') :
    s'.tr = { s.tr with src := src, ndig := ndig, base := base, di := 0, wo := 0, unit := .addrEncode } := by
  obtain ⟨d, -, h⟩ := run_bind_eq_ok.1 h
  split at h
  · cases h
  · cases h
    rfl

theorem addrIter_tr {s s' : State} (h : addrIter s = .ok s') :
    s'.tr = { s.tr with wo := s.tr.wo + 1, di := s.tr.di + 2 } := by
  obtain ⟨lo, -, h⟩ := run_bind_eq_ok.1 h
  obtain ⟨hi, -, h⟩ := run_bind_eq_ok.1 h
  obtain ⟨s₁, -, h⟩ := run_bind_eq_ok.1 h
  cases h
  rfl

theorem septetEnter_tr {base capr : Nat} {s s' : State} (h : septetEnter base capr s = .ok s') :
    s'.tr = { s.tr with base := base, p := 1, i := 0, o := 0, unit := .septetPack } := by
  unfold septetEnter at h
  split at h
  · cases h
  · cases h
    rfl

theorem septetIter_tr {s s' : State} (h : septetIter s = .ok s') : s'.tr = nextPhase s.tr := by
  obtain ⟨a, -, h⟩ := run_bind_eq_ok.1 h
  obtain ⟨b, -, h⟩ := run_bind_eq_ok.1 h
  obtain ⟨s₁, -, h⟩ := run_bind_eq_ok.1 h
  cases h
  rfl

theorem nextPhase_unit (t : Transient) : (nextPhase t).unit = t.unit := by
  unfold nextPhase
  split <;> rfl

theorem lt_nextPhase_i (t : Transient) : t.i < (nextPhase t).i := by
  rw [nextPhase_i]
  split <;> omega

theorem septetLeftover_unit {s s' : State} (h : septetLeftover s = .ok s') : s'.tr.unit = s.tr.unit := by
  unfold septetLeftover at h
  split at h
  · obtain ⟨a, -, h⟩ := run_bind_eq_ok.1 h
    obtain ⟨s₁, -, h⟩ := run_bind_eq_ok.1 h
    cases h
    rfl
  · cases h
    rfl

theorem emitAll_unit {vs : List Byte} {s s' : State} (h : emitAll vs s = .ok s') : s'.tr.unit = s.tr.unit := by
  obtain ⟨e, z, he, -⟩ | ⟨-, he, -⟩ := emitAll_cases (vs := vs) (s := s)
  · cases he.symm.trans h
  · cases he.symm.trans h
    rfl

/-! ### Where an operation stands -/

/-- The operation `op`, running since `s₀` with nothing asked of the block, stands in `s` at this stage and in this unit. -/
structure StandsAt (s₀ : State) (op : Instr) (st : Stage) (u : RunUnit) (s : State) : Prop where
  mode : s.mode = .running op
  requests : s.requests = []
  kept : Kept s₀ s
  stage : s.tr.stage = st
  unit : s.tr.unit = u

section parts
variable {s₀ s s' : State} {op : Instr} {st : Stage} {u : RunUnit} {n : Nat} {r : Run State} {K : State → Run State}

/-- A part of the operation, run through, leads to where its registers say. -/
theorem StandsAt.next {st' : Stage} {u' : RunUnit} (h : StandsAt s₀ op st u s) (k : Kept s s') (hst : s'.tr.stage = st')
    (hu : s'.tr.unit = u') : StandsAt s₀ op st' u' s' :=
  ⟨k.mode.trans h.mode, k.requests.trans h.requests, h.kept.trans k, hst, hu⟩

theorem StandsAt.setStage (h : StandsAt s₀ op st u s) (st' : Stage) : StandsAt s₀ op st' u (s.setStage st') :=
  h.next ((Kept.refl s).setTr _) rfl h.unit

theorem StandsAt.step (h : StandsAt s₀ op st u s) (hr : Reaches n (runStep op s) r) : Reaches (n + 1) (.ok s) r :=
  hr.step h.mode h.requests

theorem StandsAt.reaches_finish (h : StandsAt s₀ op st u s) (len : Nat) : Reaches 0 (.ok (finish len s)) (.ok (finish len s)) :=
  reaches_ended rfl h.requests

theorem StandsAt.runStep_idle (h : StandsAt s₀ op st .idle s) : runStep op s = sequenceStep op s := by
  simp only [runStep, h.unit]

theorem StandsAt.runStep_addrEncode (h : StandsAt s₀ op st .addrEncode s) : runStep op s = addrStep op s := by
  simp only [runStep, h.unit]

theorem StandsAt.runStep_septetPack (h : StandsAt s₀ op st .septetPack s) : runStep op s = septetStep op s := by
  simp only [runStep, h.unit]

theorem StandsAt.stageEmit {smsc : Bool} {st' : Stage} (h : StandsAt s₀ op st u s) (hr : stageEmit smsc st' s = .ok s') :
    StandsAt s₀ op st u s' :=
  h.next ((keepsAt_stageEmit smsc st' s).ok _ hr) ((emitAll_keepsStage _ s s' hr).trans h.stage) ((emitAll_unit hr).trans h.unit)

theorem StandsAt.addrEnter {src : InSpace} {ndig base capr : Nat} (h : StandsAt s₀ op st u s)
    (hr : addrEnter src ndig base capr s = .ok s') : StandsAt s₀ op st .addrEncode s' :=
  h.next ((keepsAt_addrEnter _ _ _ _ s).ok _ hr) (by rw [addrEnter_tr hr, h.stage]) (by rw [addrEnter_tr hr])

theorem StandsAt.addrIter (h : StandsAt s₀ op st u s) (hr : addrIter s = .ok s') : StandsAt s₀ op st u s' :=
  h.next ((keepsAt_addrIter s).ok _ hr) (by rw [addrIter_tr hr, h.stage]) (by rw [addrIter_tr hr, h.unit])

theorem StandsAt.septetEnter {base capr : Nat} (h : StandsAt s₀ op st u s) (hr : septetEnter base capr s = .ok s') :
    StandsAt s₀ op st .septetPack s' :=
  h.next ((keepsAt_septetEnter _ _ s).ok _ hr) (by rw [septetEnter_tr hr, h.stage]) (by rw [septetEnter_tr hr])

theorem StandsAt.septetIter (h : StandsAt s₀ op st u s) (hr : septetIter s = .ok s') : StandsAt s₀ op st u s' :=
  h.next ((keepsAt_septetIter s).ok _ hr) (by rw [septetIter_tr hr, nextPhase_stage, h.stage])
    (by rw [septetIter_tr hr, nextPhase_unit, h.unit])

theorem StandsAt.septetLeftover (h : StandsAt s₀ op st u s) (hr : septetLeftover s = .ok s') : StandsAt s₀ op st u s' :=
  h.next ((keepsAt_septetLeftover s).ok _ hr) ((septetLeftover_keepsStage s s' hr).trans h.stage)
    ((septetLeftover_unit hr).trans h.unit)

/-! ### The unit procedures

`fin` is where the step that ends a unit leads: `finish` of the state, or in ASMPDU the next stage. -/

/-- AddrEncode's loop and its end: a step for each turn, and one for the end (R101). -/
theorem reaches_addrLoop {fin : State → State} (hend : ∀ s, s.tr.stage = st → addrEnd op s = .ok (fin s))
    (hK : ∀ s, StandsAt s₀ op st .addrEncode s → Reaches n (.ok (fin s)) (K s)) (fuel : Nat)
    (h : StandsAt s₀ op st .addrEncode s) (hf : s.tr.ndig ≤ s.tr.di + fuel) :
    Reaches (n + 1 + fuel) (.ok s) (addrLoop fuel s >>= K) := by
  have last : ∀ s, StandsAt s₀ op st .addrEncode s → ¬ s.tr.di < s.tr.ndig →
      Reaches (n + 1) (.ok s) (K s) := fun s h hd => by
    refine h.step ?_
    rw [h.runStep_addrEncode, addrStep, if_neg hd, hend s h.stage]
    exact hK s h
  induction fuel generalizing s with
  | zero => exact last s h (by omega)
  | succ fuel ih =>
    rw [addrLoop]
    by_cases hd : s.tr.di < s.tr.ndig
    · rw [if_pos hd, bind_assoc]
      refine h.step ?_
      rw [h.runStep_addrEncode, addrStep, if_pos hd]
      refine .bind_right fun s' hs' => ih (h.addrIter hs') ?_
      rw [addrIter_tr hs']
      show s.tr.ndig ≤ s.tr.di + 2 + fuel
      omega
    · rw [if_neg hd]
      exact (last s h hd).mono (by omega)

/-- SeptetPack's main pass, the leftover and the end: a step for each byte of the main pass, and one for the rest (R125, R131). -/
theorem reaches_septetLoop {fin : State → State} (hend : ∀ s, s.tr.stage = st → septetEnd op s = .ok (fin s))
    (hK : ∀ s, StandsAt s₀ op st .septetPack s → Reaches n (.ok (fin s)) (K s)) (fuel : Nat)
    (h : StandsAt s₀ op st .septetPack s) (hf : s.iface.nt ≤ s.tr.i + 1 + fuel) :
    Reaches (n + 1 + fuel) (.ok s) (septetLoop fuel s >>= fun s' => septetLeftover s' >>= K) := by
  have last : ∀ s, StandsAt s₀ op st .septetPack s → ¬ s.tr.i + 1 < s.iface.nt →
      Reaches (n + 1) (.ok s) (septetLeftover s >>= K) := fun s h hd => by
    refine h.step ?_
    rw [h.runStep_septetPack, septetStep, if_neg hd]
    refine .bind fun s' hs' => ?_
    have h' := h.septetLeftover hs'
    rw [hend s' h'.stage]
    exact hK s' h'
  induction fuel generalizing s with
  | zero => exact last s h (by omega)
  | succ fuel ih =>
    rw [septetLoop]
    by_cases hd : s.tr.i + 1 < s.iface.nt
    · rw [if_pos hd, bind_assoc]
      refine h.step ?_
      rw [h.runStep_septetPack, septetStep, if_pos hd]
      refine .bind_right fun s' hs' => ih (h.septetIter hs') ?_
      have hi := lt_nextPhase_i s.tr
      rw [((keepsAt_septetIter s).ok _ hs').iface, septetIter_tr hs']
      omega
    · rw [if_neg hd]
      exact (last s h hd).mono (by omega)

/-- AddrEncode, after the small step that starts it: the turns of its loop and its end (R101). -/
theorem reaches_addrEncode {fin : State → State} (hend : ∀ s, s.tr.stage = st → addrEnd op s = .ok (fin s))
    (hK : ∀ s, StandsAt s₀ op st .addrEncode s → Reaches n (.ok (fin s)) (K s)) (h : StandsAt s₀ op st u s) (src : InSpace)
    (ndig base capr : Nat) :
    Reaches (n + 1 + ndig) (addrEnter src ndig base capr s) (addrEncode src ndig base capr s >>= K) := by
  rw [addrEncode, bind_assoc]
  refine .bind_right fun s' hs' => reaches_addrLoop hend hK ndig (h.addrEnter hs') ?_
  rw [addrEnter_tr hs']
  exact Nat.le_add_left _ _

/-- SeptetPack, after the small step that starts it: the steps of its main pass and its end (R125). -/
theorem reaches_septetPack {fin : State → State} (hend : ∀ s, s.tr.stage = st → septetEnd op s = .ok (fin s))
    (hK : ∀ s, StandsAt s₀ op st .septetPack s → Reaches n (.ok (fin s)) (K s)) (h : StandsAt s₀ op st u s)
    (base capr : Nat) :
    Reaches (n + 1 + s₀.iface.nt) (septetEnter base capr s) (septetPack base capr s >>= K) := by
  simp only [septetPack, bind_assoc]
  rw [← h.kept.iface]
  refine .bind_right fun s' hs' => reaches_septetLoop hend hK s.iface.nt (h.septetEnter hs') ?_
  rw [((keepsAt_septetEnter base capr s).ok _ hs').iface]
  omega

end parts

/-! ### The three commands -/

section commands
variable {s₀ s : State} {smsc : Bool} {st next : Stage} {n : Nat} {K : State → Run State}

theorem reaches_encAddrBody (h : StandsAt s₀ .encaddr st .idle s) :
    Reaches (s₀.iface.nd + 2) (.ok s) (encAddrBody s) := by
  refine (h.step (n := 0 + 1 + s₀.iface.nd) ?_).mono (by omega)
  rw [h.runStep_idle, ← h.kept.iface]
  exact reaches_addrEncode (fun _ _ => rfl) (fun _ h => h.reaches_finish _) h _ _ _ _

theorem reaches_pack7Body (h : StandsAt s₀ .pack7 st .idle s) :
    Reaches (s₀.iface.nt + 2) (.ok s) (pack7Body s) := by
  refine (h.step (n := 0 + 1 + s₀.iface.nt) ?_).mono (by omega)
  rw [h.runStep_idle]
  exact reaches_septetPack (fun _ _ => rfl) (fun _ h => h.reaches_finish _) h _ _

/-- In ASMPDU, set to the stage `next`, `n` small steps lead to what is left of the transaction, `K`. -/
def GoesOn (s₀ : State) (smsc : Bool) (next : Stage) (n : Nat) (K : State → Run State) : Prop :=
  ∀ s, StandsAt s₀ (.asmpdu smsc) next .idle (s.setStage next) → Reaches n (.ok (s.setStage next)) (K s)

/-- A stage that emits its bytes and goes on is one small step. -/
theorem reaches_emitStage (hafter : ∀ s, stageAfter smsc st s = .ok (s.setStage next))
    (h : StandsAt s₀ (.asmpdu smsc) st .idle s) (hK : GoesOn s₀ smsc next n K) :
    Reaches (n + 1) (.ok s) (stageEmit smsc st s >>= K) := by
  refine h.step ?_
  rw [h.runStep_idle, sequenceStep, h.stage]
  refine .bind fun s' hs' => ?_
  rw [hafter]
  exact hK s' ((h.stageEmit hs').setStage next)

/-- A stage with an address: the step that emits its bytes starts AddrEncode. -/
theorem reaches_addrStage {src : InSpace}
    (hafter : ∀ s, stageAfter smsc st s = addrEnter src (s.inSize src) s.tr.w (s.iface.cap - s.tr.w) s)
    (hend : ∀ s, s.tr.stage = st → addrEnd (.asmpdu smsc) s = .ok ((addrReturn s).setStage next))
    (h : StandsAt s₀ (.asmpdu smsc) st .idle s) (hK : GoesOn s₀ smsc next n K) :
    Reaches (n + 1 + s₀.inSize src + 1) (.ok s) (stageEmit smsc st s >>= fun s' => pduAddr src (s'.inSize src) s' >>= K) := by
  refine h.step ?_
  rw [h.runStep_idle, sequenceStep, h.stage]
  refine .bind fun s' hs' => ?_
  have h' := h.stageEmit hs'
  rw [hafter, pduAddr, bind_assoc, ← h'.kept.inSize]
  exact reaches_addrEncode hend (fun s h => hK (addrReturn s) (h.next (((Kept.refl s).setTr _).setTr _) rfl rfl)) h' _ _ _ _

theorem reaches_stageSmsc (h : StandsAt s₀ (.asmpdu smsc) .smsc .idle s) (hK : GoesOn s₀ smsc .header n K) :
    Reaches (n + 1 + s₀.iface.ns + 1) (.ok s) (stageSmsc smsc s >>= K) := by
  rw [stageSmsc, bind_assoc]
  cases smsc with
  | false => exact (reaches_emitStage (fun _ => rfl) h hK).mono (by omega)
  | true => exact reaches_addrStage (src := .digs) (fun _ => rfl) (fun _ hst => by simp only [addrEnd, hst]) h hK

theorem reaches_stageDest (h : StandsAt s₀ (.asmpdu smsc) .dest .idle s) (hK : GoesOn s₀ smsc .consts n K) :
    Reaches (n + 1 + s₀.iface.nd + 1) (.ok s) (stageDest smsc s >>= K) := by
  rw [stageDest, bind_assoc]
  exact reaches_addrStage (src := .digd) (fun _ => rfl) (fun _ hst => by simp only [addrEnd, hst]) h hK

/-- Stage 6, the text: it emits no bytes of its own (R160). -/
theorem reaches_stageText (h : StandsAt s₀ (.asmpdu smsc) .text .idle s) (hK : GoesOn s₀ smsc .done n K) :
    Reaches (n + 1 + s₀.iface.nt + 1) (.ok s) (pduText s >>= K) := by
  refine h.step ?_
  rw [h.runStep_idle, sequenceStep, h.stage, pduText, bind_assoc]
  exact reaches_septetPack (fun s hst => by simp only [septetEnd, hst])
    (fun s h => hK (septetReturn s) (h.next (((Kept.refl s).setTr _).setTr _) rfl rfl)) h _ _

/-- Stage 7 is the step that finishes (R161). -/
theorem reaches_stageDone (h : StandsAt s₀ (.asmpdu smsc) .done .idle s) : Reaches 1 (.ok s) (.ok (finish s.tr.w s)) := by
  refine h.step ?_
  rw [h.runStep_idle, sequenceStep, h.stage]
  exact h.reaches_finish _

/-- ASMPDU, stage by stage (R151). -/
theorem reaches_asmPduBody (h : StandsAt s₀ (.asmpdu smsc) .smsc .idle s) :
    Reaches (s₀.iface.ns + s₀.iface.nd + s₀.iface.nt + 10) (.ok s) (asmPduBody smsc s) := by
  refine Reaches.mono (n := 1 + 1 + s₀.iface.nt + 1 + 1 + 1 + 1 + s₀.iface.nd + 1 + 1 + 1 + s₀.iface.ns + 1) ?_ (by omega)
  exact reaches_stageSmsc h fun _ h => reaches_emitStage (fun _ => rfl) h fun _ h =>
    reaches_stageDest h fun _ h => reaches_emitStage (fun _ => rfl) h fun _ h =>
    reaches_emitStage (fun _ => rfl) h fun _ h => reaches_stageText h fun _ h => reaches_stageDone h

end commands

/-- Accepting a command without waiting is one step, into the state in which the command runs (R26, R202). -/
theorem step_issueNoWait {s : State} {b : Byte} {i : Instr} {rest : List Request} (hq : s.requests = .issueNoWait b :: rest)
    (hd : decode b = .ok i) (ha : ((s.setRequests rest).setCmd b).accepts i) :
    step s = .next (started i ((s.setRequests rest).setCmd b)) := by
  rw [step_cons hq, serve, serveIssueNoWait, hd]
  simp only [accept_of_accepts ha]

/-- A command accepted with nothing else asked of the block: its small steps lead to what the transaction answers. -/
theorem run_started {i : Instr} {u : State} (ha : u.accepts i) (hq : u.requests = []) {m : Nat}
    (hm : u.iface.ns + u.iface.nd + u.iface.nt + 10 ≤ m) : Sys2Proof.core.run m (started i u) = exec i u := by
  have h : StandsAt (started i u) i .smsc .idle (started i u) := ⟨rfl, hq, .refl _, rfl, rfl⟩
  have ns : (started i u).iface.ns = u.iface.ns := rfl
  have nd : (started i u).iface.nd = u.iface.nd := rfl
  have nt : (started i u).iface.nt = u.iface.nt := rfl
  cases i with
  | encaddr => rw [exec_encaddr, transact_of_accepts ha]; exact reaches_encAddrBody h m (by omega)
  | pack7 => rw [exec_pack7, transact_of_accepts ha]; exact reaches_pack7Body h m (by omega)
  | asmpdu smsc => rw [exec_asmpdu, transact_of_accepts ha]; exact reaches_asmPduBody h m (by omega)

/-- Settles O42: the first step accepts the command, and the small steps follow the transaction part by part. -/
theorem smallStepsReachTheTransaction : Obligations.SmallStepsReachTheTransaction := by
  unfold Obligations.SmallStepsReachTheTransaction
  intro s b i n hd ha hq hn
  have hu : ((s.setRequests []).setCmd b).accepts i :=
    accepts_congr rfl rfl rfl rfl (fun sp => by rw [setCmd_inSize, setRequests_inSize]) ha
  obtain ⟨m, rfl⟩ : ∃ m, n = 1 + m := ⟨n - 1, by omega⟩
  rw [run_add_of_next (run_one (step_issueNoWait hq hd hu))]
  refine run_started hu rfl ?_
  show s.iface.ns + s.iface.nd + s.iface.nt + 10 ≤ m
  omega

end Sys2Proof.Laws
end

section
/-! PROOFS. ASMPDU (42_pdu_assembler.md): the bytes it writes are those of the layout, field by field; which kinds it may report, and the
capacity it needs; and what its length bytes count, with the consumer's length parameter that rests on the first of them. -/

namespace Sys2Proof.Laws

open Sys2Proof.Machine

/-! ### The layout -/

/-- The address byte as a sum, as `State.addrOut` writes it (R105). -/
theorem addrByte_eq_trunc8_add (lo hi : Nibble) : addrByte lo hi = trunc8 (hi.toNat * 16 + lo.toNat) := by
  rw [trunc8, ← addrByte_toNat, BitVec.ofNat_toNat, BitVec.setWidth_eq]

theorem pairByte_eq_addrOut {s : State} {sp : InSpace} {n k : Nat} (hd : s.DigitString sp n) (hk : 2 * k < n) :
    pairByte s sp n k = s.addrOut sp n k := by
  rw [pairByte, addrByte_eq_trunc8_add, digit_toNat (hd _ hk), State.addrOut]
  by_cases h : 2 * k + 1 < n
  · rw [if_pos h, if_pos h, digit_toNat (hd _ h)]
  · rw [if_neg h, if_neg h]
    rfl

/-- AddrEncode writes the encoded address (R105, R106). -/
theorem pairBytes_eq_addrBytes {s : State} {sp : InSpace} {n : Nat} (hd : s.DigitString sp n) :
    pairBytes s sp n (ceilDiv n 2) = s.addrBytes sp n := by
  refine List.map_congr_left fun k hk => pairByte_eq_addrOut hd ?_
  rw [List.mem_range, ceilDiv_two] at hk
  omega

theorem smscWritten_eq_smscField {smsc : Bool} {s : State} (hs : smsc = true → s.DigitString .digs s.iface.ns) :
    smscWritten smsc s = s.smscField smsc := by
  cases smsc with
  | false => rfl
  | true =>
    rw [smscWritten, if_pos rfl, pairBytes_eq_addrBytes (hs rfl)]
    rfl

/-- The stages write the fields of the table, one after another (R151, R152). -/
theorem pduWritten_eq_pduBytes {smsc : Bool} {s : State} (hs : smsc = true → s.DigitString .digs s.iface.ns)
    (hd : s.DigitString .digd s.iface.nd) : pduWritten smsc s = s.pduBytes smsc := by
  rw [pduWritten, smscWritten_eq_smscField hs, pairBytes_eq_addrBytes hd, septetBytes_eq_packedBytes]
  simp [State.pduBytes, stageBytes, Config.messageReference]

theorem pduWritten_length (smsc : Bool) (s : State) : (pduWritten smsc s).length = s.iface.posT smsc := by
  simp only [pduWritten, stageBytes, List.length_append, smscWritten_length, pairBytes_length, septetBytes_length,
    List.length_cons, List.length_nil, Iface.posT, Iface.posB]
  omega

/-- OUT[0 .. LEN-1] is the bytes written, as a list. -/
theorem Answers.map_outByte {i : Instr} {s t : State} (h : Answers i s t) (hn : s.errors i = []) :
    (List.range t.len).map t.outByte = writtenBytes i s := by
  refine List.ext_getElem (by simpa using (h.ok hn).2.1) fun k _ hk => ?_
  rw [List.getElem_map, List.getElem_range]
  exact h.bytes hn k _ (List.getElem?_eq_getElem hk)

/-- Settles O23: no check fails, so the bytes are those the stages write. -/
theorem asmPduWritesTheLayout : Obligations.AsmPduWritesTheLayout := by
  unfold Obligations.AsmPduWritesTheLayout
  intro smsc s ha hs hd ht hT
  obtain ⟨t, hexec, ans⟩ := exec_of_accepts ha
  have hnil := errors_asmpdu_eq_nil hs hd ht hT
  obtain ⟨hok, hlen, -⟩ := ans.ok hnil
  exact ⟨t, hexec, hok, hlen.trans (pduWritten_length smsc s), (ans.map_outByte hnil).trans (pduWritten_eq_pduBytes hs hd)⟩

/-! ### Which kinds ASMPDU reports -/

/-- Where some kind applies, one that applies is reported (R104, R124, R163). -/
theorem Answers.reports {i : Instr} {s t : State} (h : Answers i s t) (hne : s.errors i ≠ []) :
    ∃ e ∈ s.errors i, t.status = e.status := by
  cases hp : pickFrom s.draws (s.errors i) with
  | none => exact absurd (pickFrom_eq_none.1 hp) hne
  | some e => exact ⟨e, mem_of_pickFrom hp, (h.raised e hp).1⟩

/-- Settles O25: `pduErrors` is the list of kinds that an answer of ASMPDU is about. -/
theorem asmPduReportsTheEarliestStage : Obligations.AsmPduReportsTheEarliestStage := by
  unfold Obligations.AsmPduReportsTheEarliestStage
  intro smsc s ha
  obtain ⟨t, hexec, ans⟩ := exec_of_accepts ha
  exact ⟨t, hexec, fun hnil => (ans.ok hnil).1, fun hne => ans.reports hne⟩

/-- A kind of the earliest check that fails is a kind of some check. -/
theorem exists_mem_of_mem_firstFailing {checks : List (List ErrKind)} {e : ErrKind} (h : e ∈ firstFailing checks) :
    ∃ c ∈ checks, e ∈ c := by
  induction checks with
  | nil => simp [firstFailing] at h
  | cons c checks ih =>
    rw [firstFailing_cons] at h
    split at h
    · obtain ⟨c', hc', he⟩ := ih h
      exact ⟨c', List.mem_cons_of_mem c hc', he⟩
    · exact ⟨c, List.mem_cons_self, h⟩

theorem eq_capacity_of_mem_emitErrors {s : State} {pos : Nat} {e : ErrKind} (h : e ∈ s.emitErrors pos) : e = .capacity := by
  rw [State.emitErrors] at h
  split at h
  · exact List.mem_singleton.1 h
  · cases h

/-- A kind ASMPDU may report is CapacityError, or one of its unit procedures may report it (R163). -/
theorem errors_asmpdu_source {smsc : Bool} {s : State} {e : ErrKind} (h : e ∈ s.errors (.asmpdu smsc)) :
    e = .capacity ∨ (smsc = true ∧ ∃ capr, e ∈ s.addrErrors .digs s.iface.ns capr) ∨
      (∃ capr, e ∈ s.addrErrors .digd s.iface.nd capr) ∨ ∃ capr, e ∈ s.textErrors capr := by
  rw [errors_asmpdu] at h
  obtain ⟨c, hc, he⟩ := exists_mem_of_mem_firstFailing h
  simp only [pduChecks, smscChecks, List.mem_append, List.mem_singleton] at hc
  obtain (rfl | rfl) | rfl | (rfl | rfl) | rfl | rfl | rfl := hc
  · exact .inl (eq_capacity_of_mem_emitErrors he)
  · split at he
    · exact .inr (.inl ⟨‹_›, _, he⟩)
    · cases he
  · exact .inl (eq_capacity_of_mem_emitErrors he)
  · exact .inl (eq_capacity_of_mem_emitErrors he)
  · exact .inr (.inr (.inl ⟨_, he⟩))
  · exact .inl (eq_capacity_of_mem_emitErrors he)
  · exact .inl (eq_capacity_of_mem_emitErrors he)
  · exact .inr (.inr (.inr ⟨_, he⟩))

/-- FormatError is about the digits (R165). -/
theorem not_digitString_of_format_mem {smsc : Bool} {s : State} (h : .format ∈ s.errors (.asmpdu smsc)) :
    (smsc = true ∧ ¬ s.DigitString .digs s.iface.ns) ∨ ¬ s.DigitString .digd s.iface.nd := by
  obtain h | ⟨hsmsc, _, h⟩ | ⟨_, h⟩ | ⟨_, h⟩ := errors_asmpdu_source h
  · cases h
  · exact .inl ⟨hsmsc, format_mem_addrErrors.1 h⟩
  · exact .inr (format_mem_addrErrors.1 h)
  · exact absurd h format_notMem_textErrors

/-- LengthError is about the text (R165). -/
theorem nt_gt_of_length_mem {smsc : Bool} {s : State} (h : .length ∈ s.errors (.asmpdu smsc)) : 160 < s.iface.nt := by
  obtain h | ⟨_, _, h⟩ | ⟨_, h⟩ | ⟨_, h⟩ := errors_asmpdu_source h
  · cases h
  · exact absurd h length_notMem_addrErrors
  · exact absurd h length_notMem_addrErrors
  · exact length_mem_textErrors.1 h

/-- Settles O27: ASMPDU that answers was accepted, and the kind it reports is one that applies. -/
theorem asmPduBlamesTheRightOperand : Obligations.AsmPduBlamesTheRightOperand := by
  unfold Obligations.AsmPduBlamesTheRightOperand
  intro smsc s t h
  obtain ⟨-, r, hr⟩ | ⟨-, t', ht', ans⟩ := exec_cases (.asmpdu smsc) s
  · cases hr.symm.trans h
  · cases ht'.symm.trans h
    exact ⟨fun hst => not_digitString_of_format_mem (ans.mem_errors (e := .format) hst),
      fun hst => nt_gt_of_length_mem (ans.mem_errors (e := .length) hst)⟩

/-! ### The capacity a PDU needs -/

/-- Where no check fails, the text of stage 6 fits, and with it the whole PDU (R164). -/
theorem posT_le_cap_of_errors_eq_nil {smsc : Bool} {s : State} (h : s.errors (.asmpdu smsc) = []) :
    s.iface.posT smsc ≤ s.iface.cap := by
  rw [errors_asmpdu, firstFailing_eq_nil] at h
  have hudl : s.iface.posB smsc + 4 ≤ s.iface.cap := emitErrors_eq_nil.1 (h _ (by simp [pduChecks]))
  have htext : packedLength s.iface.nt ≤ s.iface.cap - (s.iface.posB smsc + 4) :=
    (textErrors_eq_nil.1 (h _ (by simp [pduChecks]))).2
  rw [Iface.posT]
  omega

/-- Settles O26: no check fails where CAP >= T; where CAP < T some check fails, and valid inputs leave CapacityError only. -/
theorem asmPduExactCapacity : Obligations.AsmPduExactCapacity := by
  unfold Obligations.AsmPduExactCapacity
  intro smsc s ha hs hd ht
  obtain ⟨t, hexec, ans⟩ := exec_of_accepts ha
  refine ⟨t, hexec, fun hT => ?_, fun hT => ?_⟩
  · obtain ⟨hok, hlen, -⟩ := ans.ok (errors_asmpdu_eq_nil hs hd ht hT)
    exact ⟨hok, hlen.trans (pduWritten_length smsc s)⟩
  · obtain ⟨e, he, hst⟩ := ans.reports fun hnil => hT.not_ge (posT_le_cap_of_errors_eq_nil hnil)
    cases e with
    | capacity => exact hst
    | format =>
      obtain ⟨hsmsc, hbad⟩ | hbad := not_digitString_of_format_mem he
      · exact absurd (hs hsmsc) hbad
      · exact absurd hd hbad
    | length => exact absurd ht (nt_gt_of_length_mem he).not_ge

/-! ### What the length bytes count -/

theorem trunc8_toNat {n : Nat} (h : n < 256) : (trunc8 n).toNat = n := by
  rw [trunc8, BitVec.toNat_ofNat, Nat.mod_eq_of_lt h]

/-- OUT[0] as a number: the bytes of the SMSC part after it, the type of address among them, or 0 without one (R153, R154). -/
def smscLength (smsc : Bool) (s : State) : Nat := if smsc then 1 + ceilDiv s.iface.ns 2 else 0

theorem pduWritten_zero (smsc : Bool) (s : State) : (pduWritten smsc s)[0]? = some (trunc8 (smscLength smsc s)) := by
  cases smsc <;> rfl

section digitsFit
variable {smsc : Bool} {s : State} (hfit : s.DigitsFit (.asmpdu smsc)) (hwf : s.params.wf)
include hfit hwf

/-- No digit string accepted is too long for its length byte (R7, R109). -/
theorem nd_lt_256 : s.iface.nd < 256 := Nat.lt_succ_of_le (hfit.2.trans hwf.1)

theorem smscLength_lt_256 : smscLength smsc s < 256 := by
  cases smsc with
  | false => exact Nat.zero_lt_succ 255
  | true =>
    have hns : s.iface.ns ≤ 255 := (hfit.1 rfl).trans hwf.1
    rw [smscLength, if_pos rfl, ceilDiv_two]
    omega

end digitsFit

/-- Settles O24: each length byte stands at its place of `pduWritten`, and the number it holds is below 256. -/
theorem asmPduLengthBytes : Obligations.AsmPduLengthBytes := by
  unfold Obligations.AsmPduLengthBytes
  intro smsc s ha hs hd ht hT hwf
  obtain ⟨t, hexec, ans⟩ := exec_of_accepts ha
  have hfit := ha.2.1
  have hnil := errors_asmpdu_eq_nil hs hd ht hT
  have byte := ans.bytes hnil
  refine ⟨t, hexec, (ans.ok hnil).1, ?_, ?_, ?_⟩
  · rw [byte 0 _ (pduWritten_zero smsc s), trunc8_toNat (smscLength_lt_256 hfit hwf), smscLength]
  · rw [byte _ _ (pduWritten_from_posA smsc s 2), trunc8_toNat (nd_lt_256 hfit hwf)]
  · rw [byte _ _ (pduWritten_from_posB smsc s 3), trunc8_toNat (by omega)]

/-- Settles O40: LEN is T, and OUT[0] counts the SMSC part without itself. -/
theorem consumerLengthParameter : Obligations.ConsumerLengthParameter := by
  unfold Obligations.ConsumerLengthParameter
  intro smsc s ha hs hd ht hT hwf
  obtain ⟨t, hexec, ans⟩ := exec_of_accepts ha
  have hnil := errors_asmpdu_eq_nil hs hd ht hT
  obtain ⟨hok, hlen, -⟩ := ans.ok hnil
  refine ⟨t, hexec, hok, ?_⟩
  rw [consumerLength, hlen.trans (pduWritten_length smsc s), ans.bytes hnil 0 _ (pduWritten_zero smsc s),
    trunc8_toNat (smscLength_lt_256 ha.2.1 hwf)]
  cases smsc with
  | false => rfl
  | true =>
    simp only [smscLength, if_true]
    omega

end Sys2Proof.Laws
end

section
/-! PROOFS. What stands outside OUT after a command and during it: the state an error leaves (60_exceptions.md R184), the state a success
leaves (R185), and what another agent may do to memory while an operation runs (R187, 70_reset_and_hazards.md R206). -/

namespace Sys2Proof.Laws

open Sys2Proof.Machine

/-! ### The state after a command -/

/-- A command that answers a next state was accepted, and answers as an accepted command does. -/
theorem answers_of_exec {i : Instr} {s t : State} (h : exec i s = .next t) : s.accepts i ∧ Answers i s t := by
  obtain ⟨-, r, hr⟩ | ⟨ha, t', ht', ans⟩ := exec_cases i s
  · cases hr.symm.trans h
  · cases ht'.symm.trans h
    exact ⟨ha, ans⟩

/-- An address of an input space lies outside OUT when the buffers share no byte (R207). -/
theorem not_inOut_of_apart {s : State} (ha : s.Apart) {sp : InSpace} {k : Nat} (hk : k < s.inSize sp) :
    ¬ s.InOut (s.inBase sp + k) :=
  fun ⟨j, hj, he⟩ => ha sp j k hj hk he.symm

/-- An operation that has ended leaves the bytes of the input spaces (R184, R185). -/
theorem Ended.inByte {s t : State} (h : Ended s t) (ha : s.Apart) {sp : InSpace} {k : Nat} (hk : k < s.inSize sp) :
    t.inByte sp k = s.inByte sp k := by
  have hbase : t.inBase sp = s.inBase sp := by cases sp <;> simp only [State.inBase, h.place]
  rw [State.inByte, State.inByte, hbase]
  exact h.outside _ (not_inOut_of_apart ha hk)

/-- After OK the caller reads STATUS and LEN (R23). -/
theorem result_of_ok {s : State} (hm : s.mode = .idle) (hst : s.status = .ok) : s.result = some (.ok, some s.len) := by
  rw [State.result, hm, hst]

/-- After an error the caller reads the kind, and no LEN (R25). -/
theorem result_of_ne_ok {s : State} (hm : s.mode = .idle) (hst : s.status ≠ .ok) : s.result = some (s.status, none) := by
  rw [State.result, hm]
  cases h : s.status with
  | ok => exact absurd h hst
  | capacityError => rfl
  | formatError => rfl
  | lengthError => rfl

/-- Settles O28: the frame of an ended operation; an accepted command's OUT is apart from the input spaces. -/
theorem errorLeaves : Obligations.ErrorLeaves := by
  unfold Obligations.ErrorLeaves
  intro i s t h hst
  obtain ⟨⟨-, -, ha⟩, ans⟩ := answers_of_exec h
  have e := ans.ended
  exact ⟨e.mode, e.cfg, result_of_ne_ok e.mode hst, e.outside, fun _ _ hk => e.inByte ha hk,
    e.iface, e.place, e.params, e.requests⟩

/-- Settles O29: the same frame, and where no check fails the bytes written fit in OUT. -/
theorem successLeaves : Obligations.SuccessLeaves := by
  unfold Obligations.SuccessLeaves
  intro i s t h hst
  obtain ⟨⟨-, -, ha⟩, ans⟩ := answers_of_exec h
  have e := ans.ended
  obtain ⟨-, -, hcap⟩ := ans.ok (ans.status_ok_iff.1 hst)
  exact ⟨e.mode, e.cfg, result_of_ok e.mode hst, hcap, e.outside, fun _ _ hk => e.inByte ha hk,
    e.iface, e.place, e.params, e.requests⟩

/-! ### An access to memory while an operation runs -/

/-- While an operation runs, the foreign accesses are those to OUT and to the input spaces (R187). -/
theorem foreign_running_iff {s : State} {op : Instr} (hm : s.mode = .running op) {a : Nat} :
    s.foreign a = true ↔ s.InOut a ∨ ∃ sp, s.InInput sp a := by
  rw [State.foreign, hm, isRunning_running, Bool.true_and, Bool.or_eq_true, inOut_iff, inInputs_iff]

section memAccess
variable {s : State} {a : Nat} {rest : List Request}

theorem step_memRead (hq : s.requests = .memRead a :: rest) :
    step s = if s.foreign a then .refused .foreignAccess else .next (s.setRequests rest) :=
  step_cons hq

theorem step_memWrite {v : Byte} (hq : s.requests = .memWrite a v :: rest) :
    step s = if s.foreign a then .refused .foreignAccess
      else .next ((s.setRequests rest).setMem (s.mem.write a v)) :=
  step_cons hq

end memAccess

/-- Settles O45: an address in one of the four buffers is a foreign access, and any other address is not. -/
theorem accessWhileRunning : Obligations.AccessWhileRunning := by
  unfold Obligations.AccessWhileRunning
  intro s op a rest hm
  constructor
  · intro hin
    have hf : s.foreign a = true := (foreign_running_iff hm).2 hin
    refine ⟨fun hq => ?_, fun v hq => ?_⟩
    · rw [step_memRead hq, if_pos hf]
    · rw [step_memWrite hq, if_pos hf]
  · intro hout hinput
    have hf : ¬ s.foreign a = true := fun h => ((foreign_running_iff hm).1 h).elim hout fun ⟨sp, hsp⟩ => hinput sp hsp
    refine ⟨fun hq => ?_, fun v hq => ?_⟩
    · rw [step_memRead hq, if_neg hf]
    · refine ⟨(s.setRequests rest).setMem (s.mem.write a v), ?_, read_write_same s.mem a v,
        fun b hb => read_write_other s.mem v hb, rfl⟩
      rw [step_memWrite hq, if_neg hf]

end Sys2Proof.Laws
end

section
/-! PROOFS. The hazards and the reset (70_reset_and_hazards.md): OUT apart from the input spaces (R207), a command or an access that comes while
an operation runs (R205, R206), the start of a command (R202, R203), and the block in IDLE and after a reset (R200, R201). -/

namespace Sys2Proof.Laws

open Sys2Proof.Machine

/-! ### OUT and the input spaces -/

/-- OUT is apart from the input spaces exactly when no address lies in both (R207). -/
theorem apart_iff_no_shared_address {s : State} : s.Apart ↔ ∀ sp a, ¬ (s.InOut a ∧ s.InInput sp a) := by
  constructor
  · rintro h sp a ⟨⟨k, hk, hout⟩, j, hj, hin⟩
    exact h sp k j hk hj (hout.symm.trans hin)
  · intro h sp k j hk hj he
    exact h sp _ ⟨⟨k, hk, rfl⟩, j, hj, he⟩

/-- In IDLE, with no digit string over MAX_DIGITS, an overlap with OUT is the reason that is left (R187). -/
theorem exec_of_not_apart {i : Instr} {s : State} (hm : s.mode = .idle) (hfit : s.DigitsFit i) (h : ¬ s.Apart) :
    exec i s = .refused .bufferOverlap := by
  have hlong : s.digitsTooLong i = false := digitsTooLong_eq_false.2 hfit
  have hshare : s.outOverlaps = true := by
    rwa [← outOverlaps_eq_false, Bool.not_eq_false] at h
  refine exec_of_refusal ?_
  simp [refusal?, hm, hlong, hshare]

/-- Settles O14: a shared address is what `Apart` excludes, and a digit string that is too long comes first of the two reasons. -/
theorem overlapWithOutIsRefused : Obligations.OverlapWithOutIsRefused := by
  unfold Obligations.OverlapWithOutIsRefused
  constructor
  · intro s i sp a hm hout hin
    by_cases hfit : s.DigitsFit i
    · have hna : ¬ s.Apart := fun ha => apart_iff_no_shared_address.1 ha sp a ⟨hout, hin⟩
      exact ⟨.bufferOverlap, exec_of_not_apart hm hfit hna, fun _ => rfl⟩
    · exact ⟨.digitStringTooLong, exec_of_not_digitsFit hm hfit, fun h => absurd h hfit⟩
  · intro s i hm hfit h
    obtain ⟨t, ht, -⟩ := exec_of_accepts ⟨hm, hfit, apart_iff_no_shared_address.2 h⟩
    exact ⟨t, ht⟩

/-! ### A command issued -/

/-- A write of CMD by a caller who waits is the command's meaning (R203 step 4). -/
theorem step_issue {s : State} {b : Byte} {i : Instr} {rest : List Request} (hq : s.requests = .issue b :: rest)
    (hd : decode b = .ok i) : step s = exec i ((s.setRequests rest).setCmd b) :=
  (step_cons hq).trans (serveIssue_of_decode hd)

/-- A table word and its low byte decode to the same command (R71). -/
theorem decode_of_decodeTableWord {nbits w : Nat} {i : Instr} (h : decodeTableWord nbits w = some i) :
    decode (BitVec.ofNat 8 w) = .ok i := by
  unfold decodeTableWord at h
  cases hd : decode (BitVec.ofNat 8 w) with
  | ok j => simpa [hd] using h
  | error r => simp [hd] at h

/-- Settles O4: `withFetchWord` puts a waiting write of CMD first, and taking it off again leaves the state it was given. -/
theorem stepRunsTheDecodedCommand : Obligations.StepRunsTheDecodedCommand := by
  unfold Obligations.StepRunsTheDecodedCommand
  refine ⟨fun s b i rest hq hd => step_issue hq hd, fun s nbits w i hw => ?_⟩
  exact step_issue (s := s.withFetchWord nbits w) rfl (decode_of_decodeTableWord hw)

/-- The first reason looked at is MODE (R205). -/
theorem refusal?_running {s : State} {op : Instr} (hm : s.mode = .running op) (i : Instr) :
    refusal? i s = some .commandWhileRunning := by
  simp [refusal?, hm]

/-- What refuses a command refuses the write of CMD by a caller who does not wait. -/
theorem serveIssueNoWait_of_refusal {s : State} {b : Byte} {i : Instr} {r : Refusal} (hd : decode b = .ok i)
    (hr : refusal? i (s.setCmd b) = some r) : serveIssueNoWait b s = .refused r := by
  simp [serveIssueNoWait, hd, accept, hr]

/-- Settles O12: neither way of issuing changes MODE before the command is refused. -/
theorem commandWhileRunningIsRefused : Obligations.CommandWhileRunningIsRefused := by
  unfold Obligations.CommandWhileRunningIsRefused
  intro s op i hm
  refine ⟨exec_of_refusal (refusal?_running hm i), fun rest hq => ?_⟩
  have hd : decode (encode i) = .ok i := decode_eq_ok_iff.2 rfl
  have hr : refusal? i ((s.setRequests rest).setCmd (encode i)) = some .commandWhileRunning := refusal?_running hm i
  obtain hq | hq := hq
  · exact (step_issue hq hd).trans (exec_of_refusal hr)
  · exact (step_cons hq).trans (serveIssueNoWait_of_refusal hd hr)

/-- Acceptance looks neither at CMD nor at the remaining actions. -/
theorem accepts_setRequests_setCmd {i : Instr} {s : State} (ha : s.accepts i) (rest : List Request) (b : Byte) :
    ((s.setRequests rest).setCmd b).accepts i :=
  accepts_congr rfl rfl rfl rfl (fun sp => by rw [setCmd_inSize, setRequests_inSize]) ha

/-- Settles O41: the next state is `started` at the state with CMD written. -/
theorem acceptanceStartsFresh : Obligations.AcceptanceStartsFresh := by
  unfold Obligations.AcceptanceStartsFresh
  intro s b i rest hd ha hq
  exact ⟨_, step_issueNoWait hq hd (accepts_setRequests_setCmd ha rest b), rfl, rfl, rfl, rfl, rfl, rfl, rfl, rfl, rfl⟩

/-! ### An access to memory by the caller or another agent -/

/-- Settles O36: its three accesses are among those that `AccessWhileRunning` refuses. -/
theorem foreignAccessIsRefused : Obligations.ForeignAccessIsRefused := by
  unfold Obligations.ForeignAccessIsRefused
  intro s op a rest hm
  have refused := (accessWhileRunning s op a rest hm).1
  exact ⟨fun hout => (refused (.inl hout)).1, fun v hout => (refused (.inl hout)).2 v,
    fun v sp hin => (refused (.inr ⟨sp, hin⟩)).2 v⟩

/-- In IDLE no access is a foreign one (R206). -/
theorem foreign_idle {s : State} (hm : s.mode = .idle) (a : Nat) : s.foreign a = false := by
  rw [State.foreign, hm, isRunning_idle, Bool.false_and]

/-- Settles O37: in IDLE the write goes through, and memory reads back what is written. -/
theorem callerWriteIsSeen : Obligations.CallerWriteIsSeen := by
  unfold Obligations.CallerWriteIsSeen
  intro s a v rest hm hq
  refine ⟨(s.setRequests rest).setMem (s.mem.write a v), ?_, read_write_same s.mem a v,
    fun b hb => read_write_other s.mem v hb, rfl⟩
  rw [step_memWrite hq, foreign_idle hm, if_neg Bool.false_ne_true]

/-! ### The block in IDLE, and a reset -/

/-- An IDLE block of which nothing is asked waits (R200). -/
theorem step_idle_nil {s : State} (hm : s.mode = .idle) (hq : s.requests = []) : step s = .next s := by
  rw [step_nil hq, microStep_idle hm, conclude_ok]

/-- Settles O5: in IDLE a small step changes nothing. -/
theorem idleBlockWaits : Obligations.IdleBlockWaits := by
  unfold Obligations.IdleBlockWaits
  intro s hm
  refine ⟨step_idle_nil hm, fun rest hq => ?_⟩
  rw [step_cons hq, serve, microStep_idle (s := s.setRequests rest) hm, conclude_ok]

/-- A reset in IDLE leaves memory (R39). -/
theorem memAfterReset_idle {s : State} (hm : s.mode = .idle) : s.memAfterReset = s.mem := by
  rw [State.memAfterReset, hm]

/-- A reset leaves every byte outside OUT (R201). -/
theorem read_memAfterReset_of_not_inOut {s : State} {a : Nat} (h : ¬ s.InOut a) : s.memAfterReset.read a = s.mem.read a := by
  cases hm : s.mode with
  | idle => rw [memAfterReset_idle hm]
  | running op =>
    have hout : ¬ (s.place.out ≤ a ∧ a < s.place.out + s.iface.cap) := fun ⟨hle, hlt⟩ =>
      h ⟨a - s.place.out, by omega, by omega⟩
    rw [State.memAfterReset, hm]
    exact read_fillFree_other _ _ _ _ _ (by omega)

/-- Settles O6: a reset is served in every state, and the state it leaves is in IDLE. -/
theorem blockResetLeaves : Obligations.BlockResetLeaves := by
  unfold Obligations.BlockResetLeaves
  intro s rest hq
  exact ⟨blockReset (s.setRequests rest), step_cons hq, rfl, rfl, memAfterReset_idle (s := s.setRequests rest),
    fun a => read_memAfterReset_of_not_inOut (s := s.setRequests rest) (a := a), rfl, rfl, rfl,
    fun hrest => step_idle_nil rfl hrest⟩

end Sys2Proof.Laws
end
